-- ==== Sys2Proof/Word.lean ====
section
/-! DEFINITION. The two word types of the LCE: the byte of the buffers and the 32-bit register word
(rules R10, R11 of 00_scope.md). Every length is a plain `Nat`. -/

namespace Sys2Proof

/-- A byte `0 <= b <= 255`; `b.getLsbD 7` is its most-significant bit (R11). -/
abbrev Byte := BitVec 8

/-- A 32-bit register value, and the 32-bit word of SHA-256 (R11, R215). -/
abbrev Word := BitVec 32

end Sys2Proof
end

