-- ==== Sys2Proof/Syntax.lean ====
section
/-! DEFINITION. The ten commands of the LCE (R122 of 30_encoding.md, opcode_table.json), and what the
host and the platform can do to it (R140, R80, R84, R450). -/

namespace Sys2Proof

/-- The commands, one constructor per row of opcode_table.json. Their operands stand in LEN0-LEN2 and
IBUF (R122); the one operand inside the command word is COMBINE's truth table FN (R120). -/
inductive Instr where
  /-- LOAD_KEYS (R161) -/
  | loadKeys
  /-- CLEAR (R165) -/
  | clear
  /-- KEYSTREAM (R216) -/
  | keystream
  /-- COMBINE with its truth table FN (R183, R187) -/
  | combine (fn : BitVec 4)
  /-- VERNAM_ENC (R243) -/
  | vernamEnc
  /-- VERNAM_DEC (R244) -/
  | vernamDec
  /-- AES_ENC (R290) -/
  | aesEnc
  /-- AES_DEC (R291) -/
  | aesDec
  /-- ENCRYPT (R322) -/
  | encrypt
  /-- DECRYPT (R323) -/
  | decrypt
  deriving DecidableEq, Repr

/-- The three host-visible regions (R80, R84). -/
inductive Region where
  | reg
  | ibuf
  | obuf
  deriving DecidableEq, Repr

/-- The two byte buffers (R80). -/
inductive Buffer where
  | ibuf
  | obuf
  deriving DecidableEq, Repr

/-- One host access to the LCE, one turn of a host's poll loop, or an assertion of the reset input.
Offsets are those of the region the access goes to (R33, R86); `width` is the access width in bits. -/
inductive HostOp where
  /-- `wr R, v` (R140): write of the register at offset `off` -/
  | regWrite (width off : Nat) (v : Word)
  /-- `rd R` (R140): read of the register at offset `off` -/
  | regRead (width off : Nat)
  /-- one byte of `wrbuf` (R140), or a write of an OBUF byte, which is ignored (R82) -/
  | bufWrite (b : Buffer) (off : Nat) (v : Byte)
  /-- one byte of `rdbuf` (R140), or a read of an IBUF byte (R80) -/
  | bufRead (b : Buffer) (off : Nat)
  /-- `poll` (R140): read STATUS until it returns BUSY = 0 and DONE = 1 -/
  | poll
  /-- the platform asserts the reset input (R450) -/
  | reset
  deriving DecidableEq, Repr

end Sys2Proof
end

