-- ==== Sys2Proof/Decode.lean ====
section
/-! DEFINITION. Decoding the 32-bit command word (R120 to R127 of 30_encoding.md), total on every word
and rejecting by name, and after it the encoder. -/

namespace Sys2Proof

/-- `W[7:0]` (R120, R121). -/
def opcField (w : Word) : BitVec 8 := w.extractLsb' 0 8

/-- `W[11:8]` (R120, R121). -/
def fnField (w : Word) : BitVec 4 := w.extractLsb' 8 4

/-- `W[31:12]` (R120, R121). -/
def rsvField (w : Word) : BitVec 20 := w.extractLsb' 12 20

/-- Why a command word is illegal (R123). All three raise the one engine error IllegalCommand (R404);
the name says which clause of R123 failed first. -/
inductive DecodeError where
  /-- OPC is none of the ten opcodes -/
  | undefinedOpcode
  /-- RSV is not 0 -/
  | reservedNotZero
  /-- FN is not 0 on a command other than COMBINE -/
  | functionNotZero
  deriving DecidableEq, Repr

/-- One row of the opcode map of rule R122. -/
structure OpcodeRow where
  /-- the operation code -/
  opc : BitVec 8
  /-- whether FN is an operand; where it is not it must be 0 (R120) -/
  usesFn : Bool
  /-- the command, given FN -/
  command : BitVec 4 → Instr

/-- The opcode map (R122). -/
def opcodeMap : List OpcodeRow := [
  ⟨0x01, false, fun _ => .loadKeys⟩,
  ⟨0x02, false, fun _ => .clear⟩,
  ⟨0x10, false, fun _ => .keystream⟩,
  ⟨0x11, true, fun fn => .combine fn⟩,
  ⟨0x20, false, fun _ => .vernamEnc⟩,
  ⟨0x21, false, fun _ => .vernamDec⟩,
  ⟨0x30, false, fun _ => .aesEnc⟩,
  ⟨0x31, false, fun _ => .aesDec⟩,
  ⟨0x40, false, fun _ => .encrypt⟩,
  ⟨0x41, false, fun _ => .decrypt⟩]

/-- Decoding (R123, R133): the row of the opcode, then RSV, then FN. -/
def decode (w : Word) : Except DecodeError Instr :=
  match opcodeMap.find? (fun row => row.opc == opcField w) with
  | none => .error .undefinedOpcode
  | some row =>
    if rsvField w ≠ 0 then .error .reservedNotZero
    else if row.usesFn = false ∧ fnField w ≠ 0 then .error .functionNotZero
    else .ok (row.command (fnField w))

/-- The instruction decoded from the row bits as opcode_table.json numbers them. A command is exactly
one 32-bit word (R125): the bits above `nbits` are 0. -/
def decodeTableWord (nbits w : Nat) : Option Instr :=
  match decode (BitVec.ofNat 32 (w % 2 ^ nbits)) with
  | .ok i => if w % 2 ^ nbits < 2 ^ 32 then some i else none
  | .error _ => none

/-- The command word of each command (R127). -/
def encode : Instr → Word
  | .loadKeys => 0x00000001
  | .clear => 0x00000002
  | .keystream => 0x00000010
  | .combine fn => 0x00000011 ||| (fn.zeroExtend 32 <<< 8)
  | .vernamEnc => 0x00000020
  | .vernamDec => 0x00000021
  | .aesEnc => 0x00000030
  | .aesDec => 0x00000031
  | .encrypt => 0x00000040
  | .decrypt => 0x00000041

end Sys2Proof
end

