-- ==== Sys2Proof/Config.lean ====
section
/-! DEFINITION. What the spec fixes for one implementation or leaves open (R9 of 00_scope.md,
92_eei_decisions.md, 93_implementation_defined.md). Every OPEN parameter and every "any value" of the
spec is a constant with no body, so a proof knows nothing of it beyond what its type says. -/

namespace Sys2Proof.Config

/-! ### OPEN parameters of rule R9 -/

/-- The number behind `ibufSize`; nothing is known of it. -/
opaque ibufSizeRaw : Nat

/-- `IBUF_SIZE` (R9, D8): any integer with `80 <= IBUF_SIZE <= 2^32 - 49`, and no other: the map from
`ibufSizeRaw` reaches exactly the 4294967168 values of that range. -/
def ibufSize : Nat := ibufSizeRaw % 4294967168 + 80

/-- `OBUF_SIZE = IBUF_SIZE + 48` (R9, R42). -/
def obufSize : Nat := ibufSize + 48

/-- The two tail policies of rule R185. -/
inductive TailPolicy where
  | zeroPad
  | truncate
  deriving DecidableEq, Repr, Inhabited

/-- `BYTESOF_TAIL` (R9, R185, D15). The spec names ZERO_PAD as its default and leaves the choice open. -/
opaque bytesOfTail : TailPolicy

/-- `KS` (R9, R210, R211): bit `i` of the infinite stream `KS(seed)` is `ks seed i`. -/
opaque ks : List Byte → Nat → Bool

/-- Where each of the three regions stands in address order, one of the six orders (R84). -/
opaque regionOrder : Fin 6

/-- Unused bus addresses below the `i`-th region in address order (R84). -/
opaque regionGap : Nat → Nat

/-- `BUF_BUS_ORDER` (R86): which buffer offset a byte lane of a wide bus carries. No rule reads it, and
neither does any definition of this model. -/
opaque bufBusOrder : Nat → Nat

/-! ### Free values: "any value" of 93_implementation_defined.md, each applied to the draw counter -/

/-- The TRNG's answer to draw number `d` (R8, R432): 32 bytes, any value. -/
opaque trng : (d : Nat) → Vector Byte 32

/-- Byte `off` of IBUF after the reset that took draw number `d`, until the host writes it (R51). -/
opaque ibufAfterReset : (d : Nat) → (off : Nat) → Byte

/-- Byte `off` of OBUF where the reset or completion that took draw number `d` leaves it unspecified
(R51, R82, R131, R410). -/
opaque obufUnspecified : (d : Nat) → (off : Nat) → Byte

/-- What a host read of OUT_LEN returns while BUSY (R461). -/
opaque outLenWhileBusy : (d : Nat) → Word

/-- What a host read of an OBUF byte returns while BUSY (R461). -/
opaque obufWhileBusy : (d : Nat) → Byte

/-- How many host steps the engine lets pass before it completes the command launched with draw number
`d` (R470, R471): any finite number. -/
opaque completionDelay : (d : Nat) → Nat

end Sys2Proof.Config
end

