-- ==== Sys2Proof/Machine/State.lean ====
section
/-! DEFINITION. The state of the LCE (R30 to R51 of 10_state.md) as plain data, the reasons a step can
stop, and the state after reset. -/

namespace Sys2Proof.Machine

/-- The key store (R44): three byte sequences of exactly these lengths. -/
structure KeyMaterial where
  /-- `KEY.aes` -/
  aes : Vector Byte 32
  /-- `KEY.iv` -/
  iv : Vector Byte 16
  /-- `KEY.vernam` -/
  vernam : Vector Byte 32
  deriving DecidableEq, Repr

/-- The engine sequencing state `ENG` (R31). -/
inductive Eng where
  | idle
  | busy
  deriving DecidableEq, Repr

/-- What one host read returned: a register word or a buffer byte (R85, R86). -/
inductive HostRead where
  | word (v : Word)
  | byte (v : Byte)
  deriving DecidableEq, Repr

/-- The engine errors (R400). MalformedPayload (code 0x04) is raised by the host's wrapper only and
has its place in Machine/HostWrapper.lean. -/
inductive EngineError where
  | invalidKeyLength
  | invalidCiphertext
  | cipherIntegrityError
  | illegalCommand
  | notKeyed
  | keysLocked
  | lengthError
  deriving DecidableEq, Repr

/-- Everything the spec gives the machine, then the model's own fields.

Two registers of the window are views and have no field: STATUS is `State.status` (its reserved bits
read 0, R36) and ENG is `State.eng` (R31). KEYED is `key.isSome`: R47 has a model hold the key store as
absent exactly while KEYED = 0. IBUF_SZ, OBUF_SZ and the reserved offsets are constants (R42, R43). -/
structure State where
  /-- CMD: the last word written, legal or not (R34) -/
  cmd : Word
  /-- STATUS.BUSY, and with it ENG (R31, R36) -/
  busy : Bool
  /-- STATUS.DONE (R36) -/
  done : Bool
  /-- STATUS.ERR (R36) -/
  err : Bool
  /-- STATUS.ERRCODE (R36, R400) -/
  errCode : Byte
  /-- LEN0 (R39) -/
  len0 : Word
  /-- LEN1 (R39) -/
  len1 : Word
  /-- LEN2 (R39) -/
  len2 : Word
  /-- OUT_LEN (R41) -/
  outLen : Word
  /-- the key store, absent while KEYED = 0 (R44, R47) -/
  key : Option KeyMaterial
  /-- IBUF (R81): the bytes written since reset, by offset, in canonical form -/
  ibuf : List Host.Cell
  /-- OBUF (R82): the bytes of the last result, by offset, in canonical form -/
  obuf : List Host.Cell
  /-- K_MSG (R48): the per-message key of the command in progress -/
  kMsg : Option (Vector Byte 32)
  /-- MODEL'S OWN: the draw that gives the IBUF bytes not written since reset (R51) -/
  ibufDraw : Nat
  /-- MODEL'S OWN: the draw that gives the unspecified OBUF bytes (R82, R410) -/
  obufDraw : Nat
  /-- MODEL'S OWN: the number of the next draw of a free value -/
  draws : Nat
  /-- MODEL'S OWN: host steps the engine still lets pass before it completes (R470, R471) -/
  delay : Nat
  /-- MODEL'S OWN: the host's accesses still to come, in the host's program order (R94) -/
  pending : List HostOp
  /-- MODEL'S OWN: what the host has read, newest first -/
  reads : List HostRead
  deriving DecidableEq, Repr

/-- The model faults (R413): host behaviour the hardware leaves undefined. Each stops the run, and each
is safe: a claim about a run that commits one is not provable. No command raises one. -/
inductive Fault where
  /-- a host write to CMD, LEN0-LEN2 or IBUF while BUSY (R460); raised by a host write; safe -/
  | hostProtocolViolation
  /-- a REG access that is not an aligned 32-bit word inside the window (R85); raised by a host register
  access; safe -/
  | regAccessFault
  /-- a byte access outside IBUF or OBUF (R86); raised by a host buffer access; safe -/
  | bufAccessFault
  deriving DecidableEq, Repr

/-- Why an instruction is refused. No instruction of this model is. -/
inductive Refusal where
  /-- the instruction has no meaning in this model; raised by an arm of `exec` only; safe -/
  | notModelled (mnemonic : String)
  deriving DecidableEq, Repr

/-- The outcome of a step of this machine. -/
abbrev Outcome := Host.Outcome State Fault Refusal

/-- The state after reset (R51, R450): every register 0, no command in progress, the key store absent,
no byte of IBUF or OBUF determined. The model's own fields start with draw 0 taken for IBUF, draw 1
for OBUF, and nothing pending (assumption 7, DESIGN CHOICE). -/
def State.reset : State where
  cmd := 0
  busy := false
  done := false
  err := false
  errCode := 0
  len0 := 0
  len1 := 0
  len2 := 0
  outLen := 0
  key := none
  ibuf := []
  obuf := []
  kMsg := none
  ibufDraw := 0
  obufDraw := 1
  draws := 2
  delay := 0
  pending := []
  reads := []

end Sys2Proof.Machine
end

