-- ==== Sys2Proof/Machine/Flags.lean ====
section
/-! DEFINITION. STATUS (R36 to R38 of 10_state.md): its fields, the word the host reads, and what a
launch, a success and an engine error do to them (R130, R131, R410). -/

namespace Sys2Proof.Machine

/-- STATUS.KEYED (R36): the key store holds valid Key Material (R47). -/
def State.keyed (s : State) : Bool := s.key.isSome

/-- ENG (R31): BUSY exactly when STATUS.BUSY = 1. -/
def State.eng (s : State) : Eng := if s.busy then .busy else .idle

/-- The STATUS word (R36): bits 31:16 and 7:4 read 0, ERRCODE in 15:8, ERR, DONE, BUSY and KEYED in bits
3, 2, 1 and 0. -/
def State.status (s : State) : Word :=
  0#16 ++ s.errCode ++ 0#4 ++ BitVec.ofBool s.err ++ BitVec.ofBool s.done ++ BitVec.ofBool s.busy
    ++ BitVec.ofBool s.keyed

/-- The code of each engine error (R400). -/
def EngineError.code : EngineError → Byte
  | .invalidKeyLength => 0x01
  | .invalidCiphertext => 0x02
  | .cipherIntegrityError => 0x03
  | .illegalCommand => 0x10
  | .notKeyed => 0x11
  | .keysLocked => 0x12
  | .lengthError => 0x13

/-- Launch (R130): BUSY is set; DONE, ERR and ERRCODE are cleared. -/
def State.flagsLaunch (s : State) : State :=
  { s with busy := true, done := false, err := false, errCode := 0 }

/-- Success (R131): ERR and ERRCODE are cleared, DONE is set and BUSY cleared. -/
def State.flagsSuccess (s : State) : State :=
  { s with busy := false, done := true, err := false, errCode := 0 }

/-- Engine error (R131, R410): ERR is set with its code, DONE is set and BUSY cleared. -/
def State.flagsError (s : State) (e : EngineError) : State :=
  { s with busy := false, done := true, err := true, errCode := e.code }

end Sys2Proof.Machine
end

