-- ==== Sys2Proof/WellFormed.lean ====
section
/-! DEFINITION. Well-formedness. A command has one operand inside its word, FN of COMBINE, and all
sixteen values of its four bits are legal (R123, R183), so every term of `Instr` is well formed;
which command WORDS are legal is the decoder's to say (Decode.lean). A host access is well formed when the
hardware defines it (R85, R86): the accesses this check refuses are the model faults RegAccessFault
and BufAccessFault of rule R413. -/

namespace Sys2Proof

/-- R85: REG is accessed by whole 32-bit words only. -/
def regWidthOk (width : Nat) : Bool := width == 32

/-- R85: at offsets that are multiples of 4. -/
def regAligned (off : Nat) : Bool := off % 4 == 0

/-- R33, R85: inside the window of 64 bytes. -/
def regInWindow (off : Nat) : Bool := decide (off < 0x40)

/-- R85: the register accesses the hardware defines. -/
def regAccessOk (width off : Nat) : Bool :=
  regWidthOk width && regAligned off && regInWindow off

/-- R80: the size of each buffer. -/
def Buffer.size : Buffer → Nat
  | .ibuf => Config.ibufSize
  | .obuf => Config.obufSize

/-- R86: the buffer bytes the hardware has. -/
def bufAccessOk (b : Buffer) (off : Nat) : Bool := decide (off < b.size)

/-- The host accesses the hardware defines (R85, R86). -/
def HostOp.wf : HostOp → Bool
  | .regWrite width off _ => regAccessOk width off
  | .regRead width off => regAccessOk width off
  | .bufWrite b off _ => bufAccessOk b off
  | .bufRead b off => bufAccessOk b off
  | .poll => true
  | .reset => true

end Sys2Proof
end

