-- ==== Sys2Proof/Machine/Ops.lean ====
section
/-! DEFINITION. The shared operations: bytes of the buffers (R80 to R103 of 20_memory.md), the register
window (R33), the launch and the completion of a command with its engine error (R130, R131, R405,
R410), the TRNG draw (R432) and reset (R450). -/

namespace Sys2Proof.Machine

/-! ### Buffers as lists of cells

A buffer lists the bytes whose value is determined, by strictly rising offset. A byte that is not
listed has no value of its own: the machine gives it a free value (assumption 1). So no listed byte
can equal what an unlisted one holds, and equal buffers are equal lists. -/

namespace Memory

/-- The byte at `off`, or nothing where it is unspecified. -/
def read? (m : List Host.Cell) (off : Nat) : Option Byte :=
  match m with
  | [] => none
  | c :: rest => if c.1 = off then some c.2 else read? rest off

/-- Store byte `v` at `off`, keeping the offsets strictly rising. -/
def store (m : List Host.Cell) (off : Nat) (v : Byte) : List Host.Cell :=
  match m with
  | [] => [(off, v)]
  | c :: rest =>
    if off < c.1 then (off, v) :: c :: rest
    else if off = c.1 then (off, v) :: rest
    else c :: store rest off v

/-- Store the bytes `vs` at `off`, `off + 1`, ... in index order (R90). -/
def storeList (m : List Host.Cell) (off : Nat) (vs : List Byte) : List Host.Cell :=
  match vs with
  | [] => m
  | v :: rest => storeList (store m off v) (off + 1) rest

/-- The canonical form: offsets strictly rising. -/
def wf (m : List Host.Cell) : Bool :=
  match m with
  | [] => true
  | [_] => true
  | c :: d :: rest => decide (c.1 < d.1) && wf (d :: rest)

/-- Every listed offset is below `n`. -/
def below (n : Nat) (m : List Host.Cell) : Bool := m.all fun c => decide (c.1 < n)

end Memory

/-- Byte `off` of IBUF: the byte the host wrote, else any value (R51, R81). -/
def State.ibufByte (s : State) (off : Nat) : Byte :=
  (Memory.read? s.ibuf off).getD (Config.ibufAfterReset s.ibufDraw off)

/-- Byte `off` of OBUF: the byte of the last result, else any value (R82). -/
def State.obufByte (s : State) (off : Nat) : Byte :=
  (Memory.read? s.obuf off).getD (Config.obufUnspecified s.obufDraw off)

/-- `MemRead(IBUF, off, n)` (R14, R102). -/
def State.memRead (s : State) (off n : Nat) : List Byte :=
  (List.range n).map fun i => s.ibufByte (off + i)

/-- `MemRead(IBUF, off, n)` as a sequence of fixed length. -/
def State.memReadVector (s : State) (off n : Nat) : Vector Byte n :=
  ⟨⟨s.memRead off n⟩, by simp [State.memRead]⟩

/-- A host write of one IBUF byte (R87): it stores the value only. -/
def State.setIbuf (s : State) (off : Nat) (v : Byte) : State :=
  { s with ibuf := Memory.store s.ibuf off v }

/-- OBUF becomes `out` at offset 0 and any value from `len(out)` on (R82, R103, R131). -/
def State.setObuf (s : State) (out : List Byte) : State :=
  { s with
    obuf := Memory.storeList [] 0 out
    obufDraw := s.draws
    draws := s.draws + 1 }

/-! ### The register window (R33) -/

/-- The registers of the window. -/
inductive RegName where
  | cmd
  | status
  | len0
  | len1
  | len2
  | outLen
  | ibufSz
  | obufSz
  | reserved
  deriving DecidableEq, Repr

/-- The register at a word-aligned offset of the window (R33). -/
def regAt (off : Nat) : RegName :=
  match off / 4 with
  | 0 => .cmd
  | 1 => .status
  | 2 => .len0
  | 3 => .len1
  | 4 => .len2
  | 5 => .outLen
  | 6 => .ibufSz
  | 7 => .obufSz
  | _ => .reserved

/-- What each register holds (R33 to R43): reserved offsets read as zero. -/
def State.regValue (s : State) : RegName → Word
  | .cmd => s.cmd
  | .status => s.status
  | .len0 => s.len0
  | .len1 => s.len1
  | .len2 => s.len2
  | .outLen => s.outLen
  | .ibufSz => BitVec.ofNat 32 Config.ibufSize
  | .obufSz => BitVec.ofNat 32 Config.obufSize
  | .reserved => 0

/-! ### Launch, draw, completion -/

/-- Launch of the command word `w` (R130). OUT_LEN, OBUF, IBUF, LEN0-LEN2, the key store and KEYED are
unchanged; the model draws how long the command takes (R470). -/
def State.launch (s : State) (w : Word) : State :=
  { s.flagsLaunch with
    cmd := w
    delay := Config.completionDelay s.draws
    draws := s.draws + 1 }

/-- `draw TRNG(32)` (R14, R432): the answer, and the state in which K_MSG holds it (R48). -/
def State.drawTrng (s : State) : Vector Byte 32 × State :=
  (Config.trng s.draws, { s with kMsg := some (Config.trng s.draws), draws := s.draws + 1 })

/-- K_MSG takes the per-message key of a Vernam ciphertext (R48). -/
def State.setKMsg (s : State) (k : Vector Byte 32) : State := { s with kMsg := some k }

/-- K_MSG does not survive the command (R48). -/
def State.discardKMsg (s : State) : State := { s with kMsg := none }

/-- `finish(out)` (R131): the successful completion. -/
def State.finish (s : State) (out : List Byte) : State :=
  { ((s.setObuf out).discardKMsg).flagsSuccess with outLen := BitVec.ofNat 32 out.length }

/-- `raise E` (R405) and error entry (R131, R410): the failed completion. The report stands in STATUS
until the next launch or CLEAR (R414); nothing else is saved and nothing is restored. -/
def State.raise (s : State) (e : EngineError) : State :=
  { ((s.setObuf []).discardKMsg).flagsError e with outLen := 0 }

/-- What `Execute` answers (R131): an output or an engine error. -/
abbrev Answer := Except EngineError (List Byte)

/-- The completion step commits the answer (R131). -/
def State.commit (s : State) : Answer → State
  | .ok out => s.finish out
  | .error e => s.raise e

/-- Reset (R450, R451): every piece of state takes its reset value, whatever the engine was doing
(R452). The host's accesses to come and what it has read are the host's, not the LCE's, and stand; the
unspecified bytes of IBUF and OBUF are drawn anew. -/
def State.resetInput (s : State) : State :=
  { State.reset with
    ibufDraw := s.draws
    obufDraw := s.draws + 1
    draws := s.draws + 2
    pending := s.pending
    reads := s.reads }

end Sys2Proof.Machine
end

