-- ==== Sys2Proof/Machine/Operands.lean ====
section
/-! DEFINITION. The operands of the commands (R122 of 30_encoding.md) and the checks made before any of
them is read: the key-state check (R406), then the length check (R407), in the order of R132. Every
length is an unbounded natural (R40), so no sum wraps. -/

namespace Sys2Proof.Machine

/-- LEN0 as an unsigned integer (R40). -/
def State.n0 (s : State) : Nat := s.len0.toNat

/-- LEN1 as an unsigned integer (R40). -/
def State.n1 (s : State) : Nat := s.len1.toNat

/-- LEN2 as an unsigned integer (R40). -/
def State.n2 (s : State) : Nat := s.len2.toNat

/-- NotKeyed when KEYED = 0 (R406), else the key store. -/
def State.requireKeys (s : State) : Except EngineError KeyMaterial :=
  match s.key with
  | none => .error .notKeyed
  | some km => .ok km

/-- KeysLocked when KEYED = 1 (R406). -/
def State.requireNoKeys (s : State) : Except EngineError Unit :=
  match s.key with
  | none => .ok ()
  | some _ => .error .keysLocked

/-- The operand of the one-operand commands, `IBUF[0..LEN0)`; LengthError when `LEN0 > IBUF_SIZE`
(R122, R407). -/
def State.readInput (s : State) : Except EngineError (List Byte) :=
  if s.n0 > Config.ibufSize then .error .lengthError else .ok (s.memRead 0 s.n0)

/-- Key material and operand of the six key-using commands: NotKeyed is checked before LengthError
(R132, R411). -/
def State.keyedInput (s : State) : Except EngineError (KeyMaterial × List Byte) :=
  match s.requireKeys with
  | .error e => .error e
  | .ok km =>
    match s.readInput with
    | .error e => .error e
    | .ok x => .ok (km, x)

/-- The two operands of COMBINE, `A = IBUF[0..LEN0)` and `B = IBUF[LEN0..LEN0+LEN1)`; LengthError when
`LEN0 + LEN1 > IBUF_SIZE` (R187, R407). -/
def State.combineInput (s : State) : Except EngineError (List Byte × List Byte) :=
  if s.n0 + s.n1 > Config.ibufSize then .error .lengthError
  else .ok (s.memRead 0 s.n0, s.memRead s.n0 s.n1)

/-- The three keys of LOAD_KEYS: KeysLocked before InvalidKeyLength (R161, R411), then
`IBUF[0..32)`, `IBUF[32..48)`, `IBUF[48..80)`. -/
def State.keysInput (s : State) : Except EngineError KeyMaterial :=
  match s.requireNoKeys with
  | .error e => .error e
  | .ok () =>
    if s.n0 ≠ 32 ∨ s.n1 ≠ 16 ∨ s.n2 ≠ 32 then .error .invalidKeyLength
    else .ok
      { aes := s.memReadVector 0 32
        iv := s.memReadVector 32 16
        vernam := s.memReadVector 48 32 }

end Sys2Proof.Machine
end

