-- ==== Sys2Proof/Machine/Aes.lean ====
section
/-! DEFINITION. AES-256, CBC, PKCS#7 and the commands AES_ENC and AES_DEC (44_aes_cbc.md). -/

namespace Sys2Proof.Machine

/-! ### State and byte order (R271) -/

/-- A block of 16 bytes; the AES state `s[r][c]` is its byte `r + 4c` (R91, R271). -/
abbrev Block := Vector Byte 16

/-- The block whose byte `i` is `f i`. -/
def Block.ofFn (f : Nat → Byte) : Block :=
  ⟨#[f 0, f 1, f 2, f 3, f 4, f 5, f 6, f 7, f 8, f 9, f 10, f 11, f 12, f 13, f 14, f 15], rfl⟩

/-- Byte `i` of a block. -/
def Block.byte (b : Block) (i : Nat) : Byte := b.toList.getD i 0

/-- `s[r][c] = in[r + 4c]` (R271). -/
def Block.cell (b : Block) (r c : Nat) : Byte := b.byte (r + 4 * c)

/-- The block whose state has `f r c` in row `r`, column `c` (R271). -/
def Block.ofCells (f : Nat → Nat → Byte) : Block := Block.ofFn fun i => f (i % 4) (i / 4)

/-- A word of four bytes (R271). -/
structure AesWord where
  w0 : Byte
  w1 : Byte
  w2 : Byte
  w3 : Byte
  deriving DecidableEq, Repr

/-- Byte `r` of a word. -/
def AesWord.byte (w : AesWord) (r : Nat) : Byte :=
  match r with
  | 0 => w.w0
  | 1 => w.w1
  | 2 => w.w2
  | _ => w.w3

/-- XOR of words. -/
def AesWord.xor (a b : AesWord) : AesWord :=
  ⟨a.w0 ^^^ b.w0, a.w1 ^^^ b.w1, a.w2 ^^^ b.w2, a.w3 ^^^ b.w3⟩

/-! ### Field arithmetic and the S-boxes (R272 to R274) -/

/-- `xtime(a)` (R272). -/
def xtime (a : Byte) : Byte := (a <<< 1) ^^^ (if a.getLsbD 7 then 0x1B#8 else 0x00#8)

/-- `xtime^i(a)` (R272). -/
def xtimeIter (i : Nat) (a : Byte) : Byte :=
  match i with
  | 0 => a
  | i + 1 => xtime (xtimeIter i a)

/-- The product `a • b` (R272): the XOR of `xtime^i(a)` over the bits `i` set in `b`. -/
def gmul (a b : Byte) : Byte :=
  (List.range 8).foldl (fun acc i => acc ^^^ (if b.getLsbD i then xtimeIter i a else 0)) 0

/-- The S-box, one row of sixteen entries for each high nibble, column 0 leftmost (R273). -/
def sboxRows : List (BitVec 128) := [
  0x637c777bf26b6fc53001672bfed7ab76, 0xca82c97dfa5947f0add4a2af9ca472c0,
  0xb7fd9326363ff7cc34a5e5f171d83115, 0x04c723c31896059a071280e2eb27b275,
  0x09832c1a1b6e5aa0523bd6b329e32f84, 0x53d100ed20fcb15b6acbbe394a4c58cf,
  0xd0efaafb434d338545f9027f503c9fa8, 0x51a3408f929d38f5bcb6da2110fff3d2,
  0xcd0c13ec5f974417c4a77e3d645d1973, 0x60814fdc222a908846eeb814de5e0bdb,
  0xe0323a0a4906245cc2d3ac629195e479, 0xe7c8376d8dd54ea96c56f4ea657aae08,
  0xba78252e1ca6b4c6e8dd741f4bbd8b8a, 0x703eb5664803f60e613557b986c11d9e,
  0xe1f8981169d98e949b1e87e9ce5528df, 0x8ca1890dbfe6426841992d0fb054bb16]

/-- The inverse S-box, laid out in the same way (R274). -/
def invSboxRows : List (BitVec 128) := [
  0x52096ad53036a538bf40a39e81f3d7fb, 0x7ce339829b2fff87348e4344c4dee9cb,
  0x547b9432a6c2233dee4c950b42fac34e, 0x082ea16628d924b2765ba2496d8bd125,
  0x72f8f66486689816d4a45ccc5d65b692, 0x6c704850fdedb9da5e154657a78d9d84,
  0x90d8ab008cbcd30af7e45805b8b34506, 0xd02c1e8fca3f0f02c1afbd0301138a6b,
  0x3a9111414f67dcea97f2cfcef0b4e673, 0x96ac7422e7ad3585e2f937e81c75df6e,
  0x47f11a711d29c5896fb7620eaa18be1b, 0xfc563e4bc6d279209adbc0fe78cd5af4,
  0x1fdda8338807c731b11210592780ec5f, 0x60517fa919b54a0d2de57a9f93c99cef,
  0xa0e03b4dae2af5b0c8ebbb3c83539961, 0x172b047eba77d626e169146355210c7d]

/-- The entry of a table at row `x div 16`, column `x mod 16` (R273). -/
def tableEntry (rows : List (BitVec 128)) (x : Byte) : Byte :=
  (rows.getD (x.toNat / 16) 0).extractLsb' (8 * (15 - x.toNat % 16)) 8

/-- `S[x]` (R273). -/
def sbox (x : Byte) : Byte := tableEntry sboxRows x

/-- `IS[y]` (R274). -/
def invSbox (y : Byte) : Byte := tableEntry invSboxRows y

/-! ### Round transformations (R275) -/

/-- `SubBytes` -/
def subBytes (s : Block) : Block := .ofCells fun r c => sbox (s.cell r c)

/-- `InvSubBytes` -/
def invSubBytes (s : Block) : Block := .ofCells fun r c => invSbox (s.cell r c)

/-- `ShiftRows`: `s'[r][c] = s[r][(c + r) mod 4]` -/
def shiftRows (s : Block) : Block := .ofCells fun r c => s.cell r ((c + r) % 4)

/-- `InvShiftRows`: `s'[r][(c + r) mod 4] = s[r][c]`, read at the target column -/
def invShiftRows (s : Block) : Block := .ofCells fun r c => s.cell r ((c + 4 - r) % 4)

/-- `MixColumns` -/
def mixColumns (s : Block) : Block := .ofCells fun r c =>
  let a0 := s.cell 0 c
  let a1 := s.cell 1 c
  let a2 := s.cell 2 c
  let a3 := s.cell 3 c
  match r with
  | 0 => gmul 0x02 a0 ^^^ gmul 0x03 a1 ^^^ a2 ^^^ a3
  | 1 => a0 ^^^ gmul 0x02 a1 ^^^ gmul 0x03 a2 ^^^ a3
  | 2 => a0 ^^^ a1 ^^^ gmul 0x02 a2 ^^^ gmul 0x03 a3
  | _ => gmul 0x03 a0 ^^^ a1 ^^^ a2 ^^^ gmul 0x02 a3

/-- `InvMixColumns` -/
def invMixColumns (s : Block) : Block := .ofCells fun r c =>
  let a0 := s.cell 0 c
  let a1 := s.cell 1 c
  let a2 := s.cell 2 c
  let a3 := s.cell 3 c
  match r with
  | 0 => gmul 0x0e a0 ^^^ gmul 0x0b a1 ^^^ gmul 0x0d a2 ^^^ gmul 0x09 a3
  | 1 => gmul 0x09 a0 ^^^ gmul 0x0e a1 ^^^ gmul 0x0b a2 ^^^ gmul 0x0d a3
  | 2 => gmul 0x0d a0 ^^^ gmul 0x09 a1 ^^^ gmul 0x0e a2 ^^^ gmul 0x0b a3
  | _ => gmul 0x0b a0 ^^^ gmul 0x0d a1 ^^^ gmul 0x09 a2 ^^^ gmul 0x0e a3

/-- `AddRoundKey(i)` with the key schedule `w` -/
def addRoundKey (w : List AesWord) (i : Nat) (s : Block) : Block := .ofCells fun r c =>
  s.cell r c ^^^ (w.getD (4 * i + c) ⟨0, 0, 0, 0⟩).byte r

/-! ### Key expansion (R276, R277) -/

/-- `RotWord` -/
def rotWord (w : AesWord) : AesWord := ⟨w.w1, w.w2, w.w3, w.w0⟩

/-- `SubWord` -/
def subWord (w : AesWord) : AesWord := ⟨sbox w.w0, sbox w.w1, sbox w.w2, sbox w.w3⟩

/-- `Rcon[j] = xtime^(j-1)(0x01)` -/
def rcon (j : Nat) : Byte := xtimeIter (j - 1) 0x01

/-- `w[i]` from the words before it, `i = len(w)`. -/
def keyWord (w : List AesWord) : AesWord :=
  let i := w.length
  let t := w.getD (i - 1) ⟨0, 0, 0, 0⟩
  let t :=
    if i % 8 = 0 then (subWord (rotWord t)).xor ⟨rcon (i / 8), 0, 0, 0⟩
    else if i % 8 = 4 then subWord t
    else t
  (w.getD (i - 8) ⟨0, 0, 0, 0⟩).xor t

/-- The schedule extended by `n` words. -/
def keyExpand (n : Nat) (w : List AesWord) : List AesWord :=
  match n with
  | 0 => w
  | n + 1 => keyExpand n (w ++ [keyWord w])

/-- The first eight words, `w[i] = [K[4i], K[4i+1], K[4i+2], K[4i+3]]`. -/
def keyWords (k : List Byte) : List AesWord :=
  (List.range 8).map fun i =>
    ⟨k.getD (4 * i) 0, k.getD (4 * i + 1) 0, k.getD (4 * i + 2) 0, k.getD (4 * i + 3) 0⟩

/-- The 60 words of the key schedule. -/
def keySchedule (k : Vector Byte 32) : List AesWord := keyExpand 52 (keyWords k.toList)

/-! ### Cipher and inverse cipher (R278, R279) -/

/-- `n` full rounds, from round number `i` up. -/
def cipherRounds (w : List AesWord) (n i : Nat) (s : Block) : Block :=
  match n with
  | 0 => s
  | n + 1 => cipherRounds w n (i + 1) (addRoundKey w i (mixColumns (shiftRows (subBytes s))))

/-- The cipher with the schedule `w` (R278). -/
def cipher (w : List AesWord) (x : Block) : Block :=
  addRoundKey w 14 (shiftRows (subBytes (cipherRounds w 13 1 (addRoundKey w 0 x))))

/-- Full inverse rounds, from round number `n` down to 1. -/
def invCipherRounds (w : List AesWord) (n : Nat) (s : Block) : Block :=
  match n with
  | 0 => s
  | n + 1 =>
    invCipherRounds w n (invMixColumns (addRoundKey w (n + 1) (invSubBytes (invShiftRows s))))

/-- The inverse cipher with the schedule `w` (R279). -/
def invCipher (w : List AesWord) (y : Block) : Block :=
  addRoundKey w 0 (invSubBytes (invShiftRows (invCipherRounds w 13 (addRoundKey w 14 y))))

/-- `E_K(in)` (R278). -/
def aesE (k : Vector Byte 32) (x : Block) : Block := cipher (keySchedule k) x

/-- `D_K(in)` (R279). -/
def aesD (k : Vector Byte 32) (y : Block) : Block := invCipher (keySchedule k) y

/-! ### CBC and padding (R281 to R284) -/

/-- XOR of blocks. -/
def blockXor (a b : Block) : Block := .ofFn fun i => a.byte i ^^^ b.byte i

/-- The first `m` blocks of a byte sequence, `x[16(i-1)..16i)` for `i = 1..m`. -/
def blocksOf (m : Nat) (x : List Byte) : List Block :=
  match m with
  | 0 => []
  | m + 1 => Block.ofFn (fun i => x.getD i 0) :: blocksOf m (x.drop 16)

/-- The bytes of a list of blocks. -/
def bytesOfBlocks (bs : List Block) : List Byte := bs.flatMap Vector.toList

/-- CBC encryption of blocks after the block `prev` (R283). -/
def cbcEncBlocks (e : Block → Block) (prev : Block) (ps : List Block) : List Block :=
  match ps with
  | [] => []
  | p :: rest => e (blockXor p prev) :: cbcEncBlocks e (e (blockXor p prev)) rest

/-- CBC decryption of blocks after the block `prev` (R284). -/
def cbcDecBlocks (d : Block → Block) (prev : Block) (cs : List Block) : List Block :=
  match cs with
  | [] => []
  | c :: rest => blockXor (d c) prev :: cbcDecBlocks d c rest

/-- `CBC_E(K, IV, x)` (R283). -/
def cbcE (k : Vector Byte 32) (iv : Block) (x : List Byte) : List Byte :=
  bytesOfBlocks (cbcEncBlocks (aesE k) iv (blocksOf (x.length / 16) x))

/-- `CBC_D(K, IV, y)` (R284). -/
def cbcD (k : Vector Byte 32) (iv : Block) (y : List Byte) : List Byte :=
  bytesOfBlocks (cbcDecBlocks (aesD k) iv (blocksOf (y.length / 16) y))

/-- `pad(m)` (R281). -/
def pkcsPad (m : List Byte) : List Byte :=
  m ++ List.replicate (16 - m.length % 16) (BitVec.ofNat 8 (16 - m.length % 16))

/-- The padding length a sequence claims, its last byte (R282). -/
def padLength (x : List Byte) : Nat := (x.getD (x.length - 1) 0).toNat

/-- Padding validation (R282): every byte of the padding is checked. -/
def validlyPadded (x : List Byte) : Bool :=
  decide (1 ≤ padLength x) && decide (padLength x ≤ 16)
    && (x.drop (x.length - padLength x)).all fun b => b.toNat == padLength x

/-- `unpad(x)` (R282). -/
def pkcsUnpad (x : List Byte) : List Byte := x.take (x.length - padLength x)

/-! ### Layer functions and commands (R285 to R291) -/

/-- `AesEnc(m)` (R285). -/
def aesEncBytes (km : KeyMaterial) (m : List Byte) : List Byte := cbcE km.aes km.iv (pkcsPad m)

/-- `AesDec(c)` (R286). -/
def aesDecBytes (km : KeyMaterial) (c : List Byte) : Answer :=
  if c.length = 0 ∨ c.length % 16 ≠ 0 then .error .cipherIntegrityError
  else if validlyPadded (cbcD km.aes km.iv c) then .ok (pkcsUnpad (cbcD km.aes km.iv c))
  else .error .cipherIntegrityError

/-- AES_ENC (R290). -/
def execAesEnc (s : State) : Outcome :=
  .next <| match s.keyedInput with
    | .error e => s.raise e
    | .ok (km, m) => s.finish (aesEncBytes km m)

/-- AES_DEC (R291). -/
def execAesDec (s : State) : Outcome :=
  .next <| match s.keyedInput with
    | .error e => s.raise e
    | .ok (km, c) => s.commit (aesDecBytes km c)

end Sys2Proof.Machine
end

