-- ==== Sys2Proof/Machine/BitSequence.lean ====
section
/-! DEFINITION. The bit-sequence operators and COMBINE (41_bit_sequence.md), as functions on whole
sequences; rule R188 says why a lazy evaluation cannot change a result. -/

namespace Sys2Proof.Machine

/-- A bit sequence is a finite list of bits or an infinite stream, index 0 first (R12). -/
inductive BitSeq where
  | finite (bits : List Bool)
  | stream (bit : Nat → Bool)

/-- `take(n, s)` (R12): the first `n` elements, all of them when `s` is finite and shorter. -/
def BitSeq.take (n : Nat) : BitSeq → List Bool
  | .finite bits => bits.take n
  | .stream bit => (List.range n).map bit

/-- The bits of a finite sequence. `bytesOf` is never applied to an unbounded sequence (R185); for a
stream this is empty and no command reaches it. -/
def BitSeq.finiteBits : BitSeq → List Bool
  | .finite bits => bits
  | .stream _ => []

/-- The bits of one byte, most-significant first (R89, R180). -/
def bitsOfByte (b : Byte) : List Bool := (List.range 8).map fun i => b.getLsbD (7 - i)

/-- `bitsOf(x)` (R180). -/
def bitsOf (x : List Byte) : List Bool := x.flatMap bitsOfByte

/-- `combine(A, B, op)` (R182): as long as the shorter input, unbounded when both are. -/
def combine (a b : BitSeq) (op : Bool → Bool → Bool) : BitSeq :=
  match a, b with
  | .finite x, .finite y => .finite (List.zipWith op x y)
  | .finite x, .stream g => .finite (List.zipWith op x ((BitSeq.stream g).take x.length))
  | .stream f, .finite y => .finite (List.zipWith op ((BitSeq.stream f).take y.length) y)
  | .stream f, .stream g => .stream fun i => op (f i) (g i)

/-- `op_FN(a, b) = FN[2*a + b]` (R183). -/
def opFn (fn : BitVec 4) (a b : Bool) : Bool := fn.getLsbD (2 * a.toNat + b.toNat)

/-- The operator of every cipher path: XOR, FN = 0x6 (R183). -/
def opXor : Bool → Bool → Bool := opFn 0x6

/-- `sum_{i=0..7} s[i] * 2^(7-i)` over the bits at hand, the missing ones counting 0 (R184, R185). -/
def byteOfBits (s : List Bool) : Byte :=
  BitVec.ofNat 8 (((List.range 8).map fun i => (s.getD i false).toNat * 2 ^ (7 - i)).sum)

/-- `bytesOf(s)` (R184) with the tail policy of rule R185 for the `r < 8` bits left over. -/
def bytesOf (tail : Config.TailPolicy) (s : List Bool) : List Byte :=
  match s with
  | s0 :: s1 :: s2 :: s3 :: s4 :: s5 :: s6 :: s7 :: rest =>
    byteOfBits [s0, s1, s2, s3, s4, s5, s6, s7] :: bytesOf tail rest
  | [] => []
  | short =>
    match tail with
    | .zeroPad => [byteOfBits short]
    | .truncate => []

/-- `outBytes(n)` (R185): `ceil8(n)` under ZERO_PAD, `n div 8` under TRUNCATE. -/
def outBytes (tail : Config.TailPolicy) (n : Nat) : Nat :=
  match tail with
  | .zeroPad => (n + 7) / 8
  | .truncate => n / 8

/-- `bytesOf(combine(bitsOf(A), bitsOf(B), op_FN))` (R187). -/
def combineBytes (fn : BitVec 4) (a b : List Byte) : List Byte :=
  bytesOf Config.bytesOfTail
    (combine (.finite (bitsOf a)) (.finite (bitsOf b)) (opFn fn)).finiteBits

/-- COMBINE (R187). -/
def execCombine (fn : BitVec 4) (s : State) : Outcome :=
  .next <| match s.combineInput with
    | .error e => s.raise e
    | .ok (a, b) => s.finish (combineBytes fn a b)

end Sys2Proof.Machine
end

