-- ==== Sys2Proof/Machine/Control.lean ====
section
/-! DEFINITION. LOAD_KEYS and CLEAR (40_keys_control.md). -/

namespace Sys2Proof.Machine

/-- The key store takes the Key Material and KEYED becomes 1 (R161). -/
def State.loadKeyStore (s : State) (km : KeyMaterial) : State := { s with key := some km }

/-- LOAD_KEYS (R161): on success the key store is committed together with `finish([])`. -/
def execLoadKeys (s : State) : Outcome :=
  .next <| match s.keysInput with
    | .error e => s.raise e
    | .ok km => (s.loadKeyStore km).finish []

/-- CLEAR (R165): `finish([])`. -/
def execClear (s : State) : Outcome := .next (s.finish [])

end Sys2Proof.Machine
end

