-- ==== Sys2Proof/Machine/Keystream.lean ====
section
/-! DEFINITION. KEYSTREAM and the reference keystream generator KS_REF with its SHA-256
(42_keystream.md). The machine uses the OPEN generator `Config.ks` (R211); KS_REF binds only the
spec's test vectors (R214, D13). -/

namespace Sys2Proof.Machine

/-! ### SHA-256 (R215) -/

/-- `ROTR^n(x)` (R215). -/
def rotr (n : Nat) (x : Word) : Word := (x >>> n) ||| (x <<< (32 - n))

/-- `Ch` (R215, item 3). -/
def shaCh (x y z : Word) : Word := (x &&& y) ^^^ (~~~x &&& z)

/-- `Maj` (R215, item 3). -/
def shaMaj (x y z : Word) : Word := (x &&& y) ^^^ (x &&& z) ^^^ (y &&& z)

/-- `S0` (R215, item 3). -/
def shaBigSigma0 (x : Word) : Word := rotr 2 x ^^^ rotr 13 x ^^^ rotr 22 x

/-- `S1` (R215, item 3). -/
def shaBigSigma1 (x : Word) : Word := rotr 6 x ^^^ rotr 11 x ^^^ rotr 25 x

/-- `s0` (R215, item 3). -/
def shaSmallSigma0 (x : Word) : Word := rotr 7 x ^^^ rotr 18 x ^^^ (x >>> 3)

/-- `s1` (R215, item 3). -/
def shaSmallSigma1 (x : Word) : Word := rotr 17 x ^^^ rotr 19 x ^^^ (x >>> 10)

/-- The round constants `K_0..K_63` (R215). -/
def shaK : List Word :=
  [0x428a2f98, 0x71374491, 0xb5c0fbcf, 0xe9b5dba5, 0x3956c25b, 0x59f111f1, 0x923f82a4, 0xab1c5ed5]
  ++ [0xd807aa98, 0x12835b01, 0x243185be, 0x550c7dc3, 0x72be5d74, 0x80deb1fe, 0x9bdc06a7, 0xc19bf174]
  ++ [0xe49b69c1, 0xefbe4786, 0x0fc19dc6, 0x240ca1cc, 0x2de92c6f, 0x4a7484aa, 0x5cb0a9dc, 0x76f988da]
  ++ [0x983e5152, 0xa831c66d, 0xb00327c8, 0xbf597fc7, 0xc6e00bf3, 0xd5a79147, 0x06ca6351, 0x14292967]
  ++ [0x27b70a85, 0x2e1b2138, 0x4d2c6dfc, 0x53380d13, 0x650a7354, 0x766a0abb, 0x81c2c92e, 0x92722c85]
  ++ [0xa2bfe8a1, 0xa81a664b, 0xc24b8b70, 0xc76c51a3, 0xd192e819, 0xd6990624, 0xf40e3585, 0x106aa070]
  ++ [0x19a4c116, 0x1e376c08, 0x2748774c, 0x34b0bcb5, 0x391c0cb3, 0x4ed8aa4a, 0x5b9cca4f, 0x682e6ff3]
  ++ [0x748f82ee, 0x78a5636f, 0x84c87814, 0x8cc70208, 0x90befffa, 0xa4506ceb, 0xbef9a3f7, 0xc67178f2]

/-- `be64(i)` (R13): byte 0 holds bits 63..56; a number of 64 bits or more is taken mod 2^64 (R214). -/
def be64 (i : Nat) : List Byte := (List.range 8).map fun j => BitVec.ofNat 8 (i >>> (8 * (7 - j)))

/-- The four bytes of a word, big-endian (R215, item 7). -/
def be32 (w : Word) : List Byte := (List.range 4).map fun j => w.extractLsb' (8 * (3 - j)) 8

/-- Padding (R215, item 1): the least number of zero bytes that fills the last block. -/
def shaPad (m : List Byte) : List Byte :=
  m ++ 0x80#8 :: List.replicate ((119 - m.length % 64) % 64) 0#8 ++ be64 (8 * m.length)

/-- Parsing (R215, item 2): bytes `4t..4t+3` read big-endian. -/
def shaWords (bytes : List Byte) : List Word :=
  match bytes with
  | a :: b :: c :: d :: rest => (a ++ b ++ c ++ d) :: shaWords rest
  | _ => []

/-- One more word of the schedule (R215, item 4), at index `t = len(w)`. -/
def shaNextW (w : List Word) : Word :=
  let t := w.length
  shaSmallSigma1 (w.getD (t - 2) 0) + w.getD (t - 7) 0 + shaSmallSigma0 (w.getD (t - 15) 0)
    + w.getD (t - 16) 0

/-- The schedule, extended by `n` words (R215, item 4). -/
def shaSchedule (n : Nat) (w : List Word) : List Word :=
  match n with
  | 0 => w
  | n + 1 => shaSchedule n (w ++ [shaNextW w])

/-- The eight working variables or hash words (R215, items 5 and 6). -/
structure ShaState where
  a : Word
  b : Word
  c : Word
  d : Word
  e : Word
  f : Word
  g : Word
  h : Word
  deriving DecidableEq, Repr

/-- The initial hash value (R215, item 5). -/
def shaInit : ShaState :=
  ⟨0x6a09e667, 0xbb67ae85, 0x3c6ef372, 0xa54ff53a, 0x510e527f, 0x9b05688c, 0x1f83d9ab, 0x5be0cd19⟩

/-- One round, with `K_t` and `W_t` (R215, item 6). -/
def shaRound (s : ShaState) (k w : Word) : ShaState :=
  let t1 := s.h + shaBigSigma1 s.e + shaCh s.e s.f s.g + k + w
  let t2 := shaBigSigma0 s.a + shaMaj s.a s.b s.c
  ⟨t1 + t2, s.a, s.b, s.c, s.d + t1, s.e, s.f, s.g⟩

/-- One block of sixteen words (R215, item 6). -/
def shaBlock (s : ShaState) (block : List Word) : ShaState :=
  let r := (List.zip shaK (shaSchedule 48 block)).foldl (fun v kw => shaRound v kw.1 kw.2) s
  ⟨s.a + r.a, s.b + r.b, s.c + r.c, s.d + r.d, s.e + r.e, s.f + r.f, s.g + r.g, s.h + r.h⟩

/-- `n` blocks, the first ones first (R215, items 2 and 6). -/
def shaBlocks (n : Nat) (words : List Word) (s : ShaState) : ShaState :=
  match n with
  | 0 => s
  | n + 1 => shaBlocks n (words.drop 16) (shaBlock s (words.take 16))

/-- The 32 output bytes (R215, item 7). -/
def shaOutput (s : ShaState) : List Byte :=
  [s.a, s.b, s.c, s.d, s.e, s.f, s.g, s.h].flatMap be32

/-- `SHA256(M)` (R215). -/
def sha256 (m : List Byte) : List Byte :=
  shaOutput (shaBlocks ((shaPad m).length / 64) (shaWords (shaPad m)) shaInit)

/-! ### KS_REF (R214) -/

/-- `D(i)` (R214). -/
def ksRefDigest (seed : List Byte) (i : Nat) : List Byte := sha256 (seed ++ be64 i)

/-- `KS_REF(seed)` (R214): bit `t` is bit `t mod 256` of the bits of `D(t div 256)`. -/
def ksRef (seed : List Byte) (t : Nat) : Bool :=
  (bitsOf (ksRefDigest seed (t / 256))).getD (t % 256) false

/-! ### KEYSTREAM (R216) -/

/-- `bytesOf(take(n, KS(seed)))` (R216). -/
def keystreamBytes (ks : List Byte → Nat → Bool) (tail : Config.TailPolicy) (seed : List Byte)
    (n : Nat) : List Byte :=
  bytesOf tail ((BitSeq.stream (ks seed)).take n)

/-- The operands of KEYSTREAM, seed and bit count; LengthError when the seed does not fit IBUF or the
output does not fit OBUF (R216, R407). -/
def State.keystreamInput (s : State) : Except EngineError (List Byte × Nat) :=
  if s.n0 > Config.ibufSize ∨ outBytes Config.bytesOfTail s.n1 > Config.obufSize then
    .error .lengthError
  else .ok (s.memRead 0 s.n0, s.n1)

/-- KEYSTREAM (R216). -/
def execKeystream (s : State) : Outcome :=
  .next <| match s.keystreamInput with
    | .error e => s.raise e
    | .ok (seed, n) => s.finish (keystreamBytes Config.ks Config.bytesOfTail seed n)

end Sys2Proof.Machine
end

