-- ==== Sys2Proof/Machine/Vernam.lean ====
section
/-! DEFINITION. The Vernam layer and its two commands (43_vernam.md). The layer's functions take the
keystream generator as an argument; the commands give them `Config.ks` (R211). -/

namespace Sys2Proof.Machine

/-- `seed(k, vk) = k ++ vk` (R240). -/
def vernamSeed (k vk : List Byte) : List Byte := k ++ vk

/-- `bytesOf(combine(bitsOf(p), KS(seed), XOR))` (R241, R242). -/
def vernamBody (ks : List Byte → Nat → Bool) (seed p : List Byte) : List Byte :=
  bytesOf Config.bytesOfTail
    (combine (.finite (bitsOf p)) (.stream (ks seed)) opXor).finiteBits

/-- `VernamEnc(p, vk, k)` (R241). -/
def vernamEncBytes (ks : List Byte → Nat → Bool) (p vk k : List Byte) : List Byte :=
  k ++ vernamBody ks (vernamSeed k vk) p

/-- `VernamDec(c, vk)` (R242): InvalidCiphertext when `len(c) < 32`. -/
def vernamDecBytes (ks : List Byte → Nat → Bool) (c vk : List Byte) : Answer :=
  if c.length < 32 then .error .invalidCiphertext
  else .ok (vernamBody ks (vernamSeed (c.take 32) vk) (c.drop 32))

/-- The first 32 bytes of a Vernam ciphertext, as K_MSG holds them (R48). -/
def messageKey (c : List Byte) : Vector Byte 32 :=
  ⟨⟨(List.range 32).map fun i => c.getD i 0⟩, rfl⟩

/-- VERNAM_ENC (R243): the draw is made after every check has passed (R132). -/
def execVernamEnc (s : State) : Outcome :=
  .next <| match s.keyedInput with
    | .error e => s.raise e
    | .ok (km, p) =>
      let drawn := s.drawTrng
      drawn.2.finish (vernamEncBytes Config.ks p km.vernam.toList drawn.1.toList)

/-- The Vernam stage of VERNAM_DEC and DECRYPT: it commits `VernamDec(c, vk)`, and K_MSG holds the first
32 bytes of `c` until then (R48, R242). -/
def State.finishVernamDec (s : State) (c vk : List Byte) : State :=
  match vernamDecBytes Config.ks c vk with
  | .error e => s.raise e
  | .ok out => (s.setKMsg (messageKey c)).finish out

/-- VERNAM_DEC (R244). -/
def execVernamDec (s : State) : Outcome :=
  .next <| match s.keyedInput with
    | .error e => s.raise e
    | .ok (km, c) => s.finishVernamDec c km.vernam.toList

end Sys2Proof.Machine
end

