-- ==== Sys2Proof/Machine/Crypter.lean ====
section
/-! DEFINITION. The orchestrator: ENCRYPT and DECRYPT (45_crypter.md). The layer order is fixed
(R321). -/

namespace Sys2Proof.Machine

/-- `Encrypt(p, k)` (R320). -/
def encryptBytes (ks : List Byte → Nat → Bool) (km : KeyMaterial) (p k : List Byte) : List Byte :=
  aesEncBytes km (vernamEncBytes ks p km.vernam.toList k)

/-- `Decrypt(c)` (R321): an error of the AES stage ends it before the Vernam stage. -/
def decryptBytes (ks : List Byte → Nat → Bool) (km : KeyMaterial) (c : List Byte) : Answer :=
  match aesDecBytes km c with
  | .error e => .error e
  | .ok v => vernamDecBytes ks v km.vernam.toList

/-- ENCRYPT (R322): the draw is made after every check has passed (R132). -/
def execEncrypt (s : State) : Outcome :=
  .next <| match s.keyedInput with
    | .error e => s.raise e
    | .ok (km, p) =>
      let drawn := s.drawTrng
      drawn.2.finish (encryptBytes Config.ks km p drawn.1.toList)

/-- DECRYPT (R323): the AES stage, then the Vernam stage on its output. -/
def execDecrypt (s : State) : Outcome :=
  .next <| match s.keyedInput with
    | .error e => s.raise e
    | .ok (km, c) =>
      match aesDecBytes km c with
      | .error e => s.raise e
      | .ok v => s.finishVernamDec v km.vernam.toList

end Sys2Proof.Machine
end

