-- ==== Sys2Proof/Machine/Dispatch.lean ====
section
/-! DEFINITION. `Execute` and its completion, selected by the command (R131, R133). -/

namespace Sys2Proof.Machine

def exec (i : Instr) (s : State) : Host.Outcome State Fault Refusal :=
  match i with
  | .loadKeys => Sys2Proof.Machine.execLoadKeys s
  | .clear => Sys2Proof.Machine.execClear s
  | .keystream => Sys2Proof.Machine.execKeystream s
  | .combine fn => Sys2Proof.Machine.execCombine fn s
  | .vernamEnc => Sys2Proof.Machine.execVernamEnc s
  | .vernamDec => Sys2Proof.Machine.execVernamDec s
  | .aesEnc => Sys2Proof.Machine.execAesEnc s
  | .aesDec => Sys2Proof.Machine.execAesDec s
  | .encrypt => Sys2Proof.Machine.execEncrypt s
  | .decrypt => Sys2Proof.Machine.execDecrypt s

end Sys2Proof.Machine
end

