-- ==== Sys2Proof/Machine/HostBus.lean ====
section
/-! DEFINITION. The host's side of the bus: what each host access does (R33 to R43, R85 to R87, R460,
R461), the poll loop (R140), and where the regions stand on the host bus (R84). -/

namespace Sys2Proof.Machine

/-! ### Host reads

A host read changes no state of the LCE (R87). The model records what the host saw, and a read whose
value is unspecified takes a draw. -/

/-- What the host has read, newest first. -/
def State.observe (s : State) (r : HostRead) : State := { s with reads := r :: s.reads }

/-- A free value was taken. -/
def State.countDraw (s : State) : State := { s with draws := s.draws + 1 }

/-- A host read of a register (R33, R461): OUT_LEN returns any value while BUSY. DESIGN CHOICE (assumption
25): it returns its value from the completion step on, before the host has read DONE = 1 too. -/
def State.hostReadReg (s : State) (r : RegName) : State :=
  if r = .outLen ∧ s.busy then (s.observe (.word (Config.outLenWhileBusy s.draws))).countDraw
  else s.observe (.word (s.regValue r))

/-- A host read of a buffer byte inside the buffer (R86, R461): an OBUF byte returns any value while
BUSY. DESIGN CHOICE (assumption 25): it returns the result from the completion step on, before the host
has read DONE = 1 too (R463 calls a copy made then any value). -/
def State.hostReadBuf (s : State) (b : Buffer) (off : Nat) : State :=
  match b with
  | .ibuf => s.observe (.byte (s.ibufByte off))
  | .obuf =>
    if s.busy then (s.observe (.byte (Config.obufWhileBusy s.draws))).countDraw
    else s.observe (.byte (s.obufByte off))

/-! ### Host writes -/

/-- A host write of CMD, LEN0-LEN2 or an IBUF byte: HostProtocolViolation while BUSY (R460), and the
write is not performed. DESIGN CHOICE (assumption 26): from the completion step on it is performed, before
the host has read DONE = 1 too, where R95 calls it a violation and R460 and R413 do not. -/
def State.guardBusy (s : State) (t : State) : Outcome :=
  if s.busy then .fault .hostProtocolViolation else .next t

/-- A host write of a register (R34, R39, R43, R130): CMD launches, LEN0-LEN2 store the value, a write
to a read-only or reserved register is ignored. -/
def State.hostWriteReg (s : State) (r : RegName) (v : Word) : Outcome :=
  match r with
  | .cmd => s.guardBusy (s.launch v)
  | .len0 => s.guardBusy { s with len0 := v }
  | .len1 => s.guardBusy { s with len1 := v }
  | .len2 => s.guardBusy { s with len2 := v }
  | .status => .next s
  | .outLen => .next s
  | .ibufSz => .next s
  | .obufSz => .next s
  | .reserved => .next s

/-- A host write of a buffer byte inside the buffer (R82, R87): a write to OBUF is ignored. -/
def State.hostWriteBuf (s : State) (b : Buffer) (off : Nat) (v : Byte) : Outcome :=
  match b with
  | .ibuf => s.guardBusy (s.setIbuf off v)
  | .obuf => .next s

/-- One turn of the poll loop (R140): a read of STATUS; unless it returns BUSY = 0 and DONE = 1 the host
polls again. DESIGN CHOICE (assumption 23): the whole loop is one place in the host's program, so a reset
that stands behind it in `pending` comes after it; a reset inside the loop is written as the loop's reads
so far, then the reset. -/
def State.hostPoll (s : State) : State :=
  if s.busy = false ∧ s.done = true then s.hostReadReg .status
  else { s.hostReadReg .status with pending := .poll :: s.pending }

/-- What one host access or reset does. An access the hardware does not define faults first (R85, R86),
so a misaligned write while BUSY is a RegAccessFault (assumption 9). -/
def hostStep (op : HostOp) (s : State) : Outcome :=
  match op with
  | .regWrite width off v =>
    if regAccessOk width off then s.hostWriteReg (regAt off) v else .fault .regAccessFault
  | .regRead width off =>
    if regAccessOk width off then .next (s.hostReadReg (regAt off)) else .fault .regAccessFault
  | .bufWrite b off v =>
    if bufAccessOk b off then s.hostWriteBuf b off v else .fault .bufAccessFault
  | .bufRead b off =>
    if bufAccessOk b off then .next (s.hostReadBuf b off) else .fault .bufAccessFault
  | .poll => .next s.hostPoll
  | .reset => .next s.resetInput

/-! ### Bus addresses (R84) -/

/-- The number of bus addresses of each region (R80). -/
def regionSize : Region → Nat
  | .reg => 0x40
  | .ibuf => Config.ibufSize
  | .obuf => Config.obufSize

/-- The six orders the three regions can stand in. -/
def regionOrders : List (List Region) :=
  [[.reg, .ibuf, .obuf], [.reg, .obuf, .ibuf], [.ibuf, .reg, .obuf],
   [.ibuf, .obuf, .reg], [.obuf, .reg, .ibuf], [.obuf, .ibuf, .reg]]

/-- The base address of region `r` when the regions in `order` stand above address `start`, each above
its own gap; `i` counts the gaps. -/
def baseIn (order : List Region) (start i : Nat) (r : Region) : Nat :=
  match order with
  | [] => start
  | q :: rest =>
    if q = r then start + Config.regionGap i
    else baseIn rest (start + Config.regionGap i + regionSize q) (i + 1) r

/-- `REG_BASE`, `IBUF_BASE` and `OBUF_BASE` (R84): any three bases whose regions do not overlap. -/
def regionBase (r : Region) : Nat :=
  baseIn (regionOrders.getD Config.regionOrder.val []) 0 0 r

/-- The bus address of the byte at an offset of a region (R84). -/
def busAddress (r : Region) (off : Nat) : Nat := regionBase r + off

end Sys2Proof.Machine
end

