-- ==== Sys2Proof/Machine/Cycle.lean ====
section
/-! DEFINITION. Who acts next, the engine or the host (R8, R31, R131, R471), and what the engine's
completion step runs. -/

namespace Sys2Proof.Machine

/-- The engine's completion step (R131, R132, R133): the command of the word in CMD, or IllegalCommand
for an illegal word (R404). -/
def completionStep (s : State) : Outcome :=
  match decode s.cmd with
  | .ok i => exec i s
  | .error _ => .next (s.raise .illegalCommand)

/-- Whether the engine completes at this step: a command is in progress, and the host steps drawn for
it have passed or the host has nothing more to do (R471). -/
def State.completes (s : State) : Bool := s.busy && (s.delay == 0 || s.pending.isEmpty)

/-- The host's next access, in program order (R94). With none left the engine waits, IDLE (R451). -/
def hostTurn (s : State) : Outcome :=
  match s.pending with
  | [] => .next s
  | op :: rest => hostStep op { s with pending := rest, delay := s.delay - 1 }

/-- The command word `w` launched (R130) with no host step before its completion. -/
def State.launched (s : State) (w : Word) : State := { s.flagsLaunch with cmd := w, delay := 0 }

end Sys2Proof.Machine
end

