-- ==== Sys2Proof/Machine/Step.lean ====
section
/-! DEFINITION. One step of the LCE and its host, and how a command word comes to be the next one run. -/

namespace Sys2Proof.Machine

/-- One step (R8, R130, R131, R471): the engine's completion when it is due, else the host's turn. -/
def step (s : State) : Host.Outcome State Fault Refusal :=
  if s.completes then completionStep s else hostTurn s

/-- The state in which the very next step runs the command word whose bits are `w`, the bits above
`nbits` being 0 (R125): the LCE fetches no code (R451), its command is the word in CMD of a launched
command (R100). -/
def State.withFetchWord (s : State) (nbits w : Nat) : State :=
  s.launched (BitVec.ofNat 32 (w % 2 ^ nbits))

end Sys2Proof.Machine
end

