-- ==== Sys2Proof/Machine/HostProgram.lean ====
section
/-! DEFINITION. The host program operations and pseudo-commands (R140, R141) as lists of host accesses,
and the boot sequence (R455). A program comes to run by standing in `State.pending`. -/

namespace Sys2Proof.Machine

/-- The offset of a register in the window (R33); `reserved` is the first reserved one. -/
def RegName.offset : RegName → Nat
  | .cmd => 0x00
  | .status => 0x04
  | .len0 => 0x08
  | .len1 => 0x0C
  | .len2 => 0x10
  | .outLen => 0x14
  | .ibufSz => 0x18
  | .obufSz => 0x1C
  | .reserved => 0x20

/-- `wr R, v` (R140). -/
def opWr (r : RegName) (v : Word) : HostOp := .regWrite 32 r.offset v

/-- `rd R` (R140). -/
def opRd (r : RegName) : HostOp := .regRead 32 r.offset

/-- `wrbuf off, bytes` (R140): byte writes to IBUF in index order. -/
def opsWrbuf (off : Nat) (bytes : List Byte) : List HostOp :=
  match bytes with
  | [] => []
  | v :: rest => .bufWrite .ibuf off v :: opsWrbuf (off + 1) rest

/-- `rdbuf off, n` (R140): byte reads of OBUF. -/
def opsRdbuf (off n : Nat) : List HostOp := (List.range n).map fun i => .bufRead .obuf (off + i)

/-- `cmd MNEMONIC` and `cmd COMBINE fn=v` (R140). -/
def opCmd (i : Instr) : HostOp := opWr .cmd (encode i)

/-- `run M` (R141). -/
def opsRun (i : Instr) : List HostOp := [opCmd i, .poll]

/-- `cmd XOR` (R141). -/
def opXorCmd : HostOp := opCmd (.combine 0x6)

/-- `cmd AND` (R141). -/
def opAndCmd : HostOp := opCmd (.combine 0x8)

/-- `cmd OR` (R141). -/
def opOrCmd : HostOp := opCmd (.combine 0xE)

/-- `load_keys aes, iv, vk` (R141); after a reset, the boot sequence up to its poll (R455). -/
def opsLoadKeys (km : KeyMaterial) : List HostOp :=
  opsWrbuf 0 (km.aes.toList ++ km.iv.toList ++ km.vernam.toList)
    ++ [opWr .len0 32, opWr .len1 16, opWr .len2 32] ++ opsRun .loadKeys

/-- Boot (R455): reset, then `load_keys`, then a read of STATUS. -/
def opsBoot (km : KeyMaterial) : List HostOp := .reset :: opsLoadKeys km ++ [opRd .status]

end Sys2Proof.Machine
end

