-- ==== Sys2Proof/Machine/HostWrapper.lean ====
section
/-! DEFINITION. The host-side JSON wrapper (46_host_wrapper.md): UTF-8 (R353), the validity of a JSON
text (R354), and `encodeEncrypt` and `decryptDecode` (R350, R351) as host procedures: the accesses
the host makes and the answer it makes of the state they end in. The wrapper is host software: it
defines no engine state and no command. -/

namespace Sys2Proof.Machine

/-! ### UTF-8 (R353)

A Unicode scalar value is Lean's `Char`: a code point up to U+10FFFF that is no surrogate. -/

/-- The byte with leading bits `lead` and six bits of `n` from bit `shift` up. -/
def utf8Byte (lead n shift : Nat) : Byte := BitVec.ofNat 8 (lead + n / 2 ^ shift % 64)

/-- The UTF-8 bytes of one scalar value, in the shortest form (R353). -/
def utf8EncodeChar (c : Char) : List Byte :=
  let n := c.toNat
  if n < 0x80 then [BitVec.ofNat 8 n]
  else if n < 0x800 then [utf8Byte 0xC0 n 6, utf8Byte 0x80 n 0]
  else if n < 0x10000 then [utf8Byte 0xE0 n 12, utf8Byte 0x80 n 6, utf8Byte 0x80 n 0]
  else [utf8Byte 0xF0 n 18, utf8Byte 0x80 n 12, utf8Byte 0x80 n 6, utf8Byte 0x80 n 0]

/-- `UTF8_ENCODE` (R353). -/
def utf8Encode (t : List Char) : List Byte := t.flatMap utf8EncodeChar

/-- A continuation byte `10xxxxxx`. -/
def utf8Cont (b : Byte) : Bool := b.toNat / 64 == 2

/-- The low six bits of a byte. -/
def utf8Low (b : Byte) : Nat := b.toNat % 64

/-- The scalar value `n` when it is one and lies in the range its number of bytes is the shortest
form for. -/
def utf8Scalar (lo hi n : Nat) : Option Char :=
  if lo ≤ n ∧ n < hi ∧ n.isValidChar then some (Char.ofNat n) else none

/-- The first scalar value of a byte sequence and what is left, or nothing where the bytes begin with
no valid encoding (R353). -/
def utf8Next (x : List Byte) : Option (Char × List Byte) :=
  match x with
  | [] => none
  | b0 :: r0 =>
    if b0.toNat < 0x80 then (utf8Scalar 0 0x80 b0.toNat).map (·, r0)
    else match r0 with
      | [] => none
      | b1 :: r1 =>
        if !utf8Cont b1 then none
        else if b0.toNat / 32 = 6 then
          (utf8Scalar 0x80 0x800 (b0.toNat % 32 * 64 + utf8Low b1)).map (·, r1)
        else match r1 with
          | [] => none
          | b2 :: r2 =>
            if !utf8Cont b2 then none
            else if b0.toNat / 16 = 14 then
              (utf8Scalar 0x800 0x10000
                (b0.toNat % 16 * 4096 + utf8Low b1 * 64 + utf8Low b2)).map (·, r2)
            else match r2 with
              | [] => none
              | b3 :: r3 =>
                if utf8Cont b3 ∧ b0.toNat / 8 = 30 then
                  (utf8Scalar 0x10000 0x110000
                    (b0.toNat % 8 * 262144 + utf8Low b1 * 4096 + utf8Low b2 * 64 + utf8Low b3)).map
                    (·, r3)
                else none

/-- Decoding with at most `fuel` scalar values. -/
def utf8DecodeFuel (fuel : Nat) (x : List Byte) : Option (List Char) :=
  match x, fuel with
  | [], _ => some []
  | _ :: _, 0 => none
  | _ :: _, fuel + 1 =>
    match utf8Next x with
    | none => none
    | some (c, rest) => (utf8DecodeFuel fuel rest).map (c :: ·)

/-- `UTF8_DECODE`, or nothing where `x` is not valid UTF-8 (R353). -/
def utf8Decode (x : List Byte) : Option (List Char) := utf8DecodeFuel x.length x

/-! ### JSON texts (R354): the grammar of RFC 8259

Each function takes the characters left and answers what is left after one sentence of its
nonterminal, or nothing where none begins there. -/

/-- `ws` -/
def jsonWs (t : List Char) : List Char :=
  t.dropWhile fun c => c == ' ' || c == '\t' || c == '\n' || c == '\r'

/-- A literal name. -/
def jsonLiteral (name t : List Char) : Option (List Char) :=
  if t.take name.length = name then some (t.drop name.length) else none

/-- `DIGIT` -/
def jsonDigit (c : Char) : Bool := decide ('0'.toNat ≤ c.toNat) && decide (c.toNat ≤ '9'.toNat)

/-- `HEXDIG`, either case -/
def jsonHex (c : Char) : Bool :=
  jsonDigit c || (decide ('a'.toNat ≤ c.toNat) && decide (c.toNat ≤ 'f'.toNat))
    || (decide ('A'.toNat ≤ c.toNat) && decide (c.toNat ≤ 'F'.toNat))

/-- `1*DIGIT` -/
def jsonDigits (t : List Char) : Option (List Char) :=
  match t with
  | [] => none
  | c :: rest => if jsonDigit c then some (rest.dropWhile jsonDigit) else none

/-- `int`: no leading zero -/
def jsonInt (t : List Char) : Option (List Char) :=
  match t with
  | '0' :: rest => some rest
  | _ => jsonDigits t

/-- `[ frac ]` -/
def jsonFrac (t : List Char) : Option (List Char) :=
  match t with
  | '.' :: rest => jsonDigits rest
  | _ => some t

/-- `[ minus / plus ]` before the digits of an exponent -/
def jsonSign (t : List Char) : List Char :=
  match t with
  | '+' :: rest => rest
  | '-' :: rest => rest
  | _ => t

/-- `[ exp ]` -/
def jsonExp (t : List Char) : Option (List Char) :=
  match t with
  | 'e' :: rest => jsonDigits (jsonSign rest)
  | 'E' :: rest => jsonDigits (jsonSign rest)
  | _ => some t

/-- `number` -/
def jsonNumber (t : List Char) : Option (List Char) :=
  let unsigned := match t with
    | '-' :: rest => rest
    | _ => t
  ((jsonInt unsigned).bind jsonFrac).bind jsonExp

/-- The characters of a string up to and past its closing quotation mark. -/
def jsonChars (t : List Char) : Option (List Char) :=
  match t with
  | [] => none
  | '"' :: rest => some rest
  | '\\' :: 'u' :: a :: b :: c :: d :: rest =>
    if jsonHex a && jsonHex b && jsonHex c && jsonHex d then jsonChars rest else none
  | '\\' :: e :: rest =>
    if ['"', '\\', '/', 'b', 'f', 'n', 'r', 't'].contains e then jsonChars rest else none
  | c :: rest => if c.toNat < 0x20 || c == '\\' then none else jsonChars rest

/-- What the grammar looks for next. -/
inductive JsonGoal where
  /-- a value -/
  | value
  /-- the rest of an array after an element -/
  | elements
  /-- a member, name first -/
  | member
  /-- the rest of an object after a member -/
  | members
  deriving DecidableEq, Repr

/-- `value`, and inside it `array` and `object`, with at most `fuel` steps. The two brackets of an
object are the characters 123 and 125. -/
def jsonParseFuel (fuel : Nat) (goal : JsonGoal) (t : List Char) : Option (List Char) :=
  match fuel with
  | 0 => none
  | fuel + 1 =>
    match goal with
    | .value =>
      match jsonWs t with
      | [] => none
      | c :: rest =>
        if c = '"' then jsonChars rest
        else if c = '[' then
          match jsonWs rest with
          | ']' :: after => some after
          | _ => (jsonParseFuel fuel .value rest).bind (jsonParseFuel fuel .elements)
        else if c.toNat = 123 then
          match jsonWs rest with
          | [] => none
          | d :: after => if d.toNat = 125 then some after else jsonParseFuel fuel .member rest
        else if c = 't' then jsonLiteral ['t', 'r', 'u', 'e'] (c :: rest)
        else if c = 'f' then jsonLiteral ['f', 'a', 'l', 's', 'e'] (c :: rest)
        else if c = 'n' then jsonLiteral ['n', 'u', 'l', 'l'] (c :: rest)
        else jsonNumber (c :: rest)
    | .elements =>
      match jsonWs t with
      | ']' :: after => some after
      | ',' :: rest => (jsonParseFuel fuel .value rest).bind (jsonParseFuel fuel .elements)
      | _ => none
    | .member =>
      match jsonWs t with
      | '"' :: rest =>
        match (jsonChars rest).map jsonWs with
        | some (':' :: after) => (jsonParseFuel fuel .value after).bind (jsonParseFuel fuel .members)
        | _ => none
      | _ => none
    | .members =>
      match jsonWs t with
      | ',' :: rest => jsonParseFuel fuel .member rest
      | c :: after => if c.toNat = 125 then some after else none
      | [] => none

/-- Whether `t` is a valid JSON text: one value, with white space around it (R354). Every two steps
take at least one character. -/
def jsonValid (t : List Char) : Bool :=
  match jsonParseFuel (2 * t.length + 2) .value t with
  | none => false
  | some rest => jsonWs rest == []

/-! ### The wrapper -/

/-- `JSON_STRINGIFY` and `JSON_PARSE` (R354), OPEN host functions over the host's own JSON values. Nothing is
required of them here; a round trip needs both that `parse (stringify v)` deep-equals `v` (R354) and that
`stringify v` is a valid JSON text, which the spec does not say (assumption 22). DESIGN CHOICE (assumption
24): the spec does not define deep equality (`1` against `1.0`), and the model takes any relation on the
host's values for it. -/
structure JsonCodec (α : Type) where
  stringify : α → List Char
  parse : List Char → α

/-- How the wrapper fails (R351, R352, R356): with the engine's error code, or with MalformedPayload. -/
inductive WrapperError where
  | engine (code : Byte)
  | malformedPayload
  deriving DecidableEq, Repr

/-- The number of each wrapper error; MalformedPayload has the reserved code 0x04 (R352, R400). -/
def WrapperError.code : WrapperError → Byte
  | .engine code => code
  | .malformedPayload => 0x04

/-- `wrbuf 0, x ; wr LEN0, len(x) ; cmd M ; poll`: what both procedures do to the LCE (R350, R351). -/
def opsTransform (i : Instr) (x : List Byte) : List HostOp :=
  opsWrbuf 0 x ++ opWr .len0 (BitVec.ofNat 32 x.length) :: opsRun i

/-- The host's reading of a completed command: its error, or `OBUF[0..OUT_LEN)` (R350, R351). -/
def State.hostResult (s : State) : Except WrapperError (List Byte) :=
  if s.err then .error (.engine s.errCode)
  else .ok ((List.range s.outLen.toNat).map s.obufByte)

/-- The bytes `encodeEncrypt(v)` encrypts (R350). -/
def encodePayload {α : Type} (j : JsonCodec α) (v : α) : List Byte := utf8Encode (j.stringify v)

/-- What `encodeEncrypt(v)` does to the LCE (R350): the accesses, or LengthError when the text does not fit
IBUF (R350, R356), which is answered with no access (assumption 21). -/
def encodeEncryptOps {α : Type} (j : JsonCodec α) (v : α) : Except WrapperError (List HostOp) :=
  if (encodePayload j v).length > Config.ibufSize then .error (.engine EngineError.lengthError.code)
  else .ok (opsTransform .encrypt (encodePayload j v))

/-- The answer of `encodeEncrypt` from the state its accesses end in (R350). -/
def encodeEncryptAnswer (s : State) : Except WrapperError (List Byte) := s.hostResult

/-- What `decryptDecode(c)` does to the LCE (R351). DESIGN CHOICE (assumption 21): a ciphertext that does
not fit IBUF is answered with LengthError at once, keyed or not, with no access; R351 has no length
check. -/
def decryptDecodeOps (c : List Byte) : Except WrapperError (List HostOp) :=
  if c.length > Config.ibufSize then .error (.engine EngineError.lengthError.code)
  else .ok (opsTransform .decrypt c)

/-- The value of a decrypted payload: MalformedPayload when it is not valid UTF-8 or not a valid JSON
text (R351). -/
def decodePayload {α : Type} (j : JsonCodec α) (x : List Byte) : Except WrapperError α :=
  match utf8Decode x with
  | none => .error .malformedPayload
  | some t => if jsonValid t then .ok (j.parse t) else .error .malformedPayload

/-- The answer of `decryptDecode` from the state its accesses end in (R351, R356). -/
def decryptDecodeAnswer {α : Type} (j : JsonCodec α) (s : State) : Except WrapperError α :=
  match s.hostResult with
  | .error e => .error e
  | .ok x => decodePayload j x

end Sys2Proof.Machine
end

