-- ==== Sys2Proof/Safety.lean ====
section
/-! DEFINITION. What a safe run is: the host keeps its protocol (R413, R460), and the state keeps the
invariants the spec gives it (R37, R48, R82, R103). -/

namespace Sys2Proof.Machine

/-- Whether a host access is one that must not be made while BUSY (R460): a write of CMD, LEN0-LEN2 or
an IBUF byte. -/
def writesOperand : HostOp → Bool
  | .regWrite _ off _ => [RegName.cmd, .len0, .len1, .len2].contains (regAt off)
  | .regRead _ _ => false
  | .bufWrite .ibuf _ _ => true
  | .bufWrite .obuf _ _ => false
  | .bufRead _ _ => false
  | .poll => false
  | .reset => false

/-- Whether the host may make this access in this state (R85, R86, R460). -/
def allowed (op : HostOp) (s : State) : Bool := op.wf && !(s.busy && writesOperand op)

/-- The error codes STATUS can hold (R37, R400): every defined code but MalformedPayload's. -/
def definedCodes : List Byte := [0x00, 0x01, 0x02, 0x03, 0x10, 0x11, 0x12, 0x13]

/-- The invariant of the LCE's state. -/
structure State.Inv (s : State) : Prop where
  /-- `(BUSY, DONE)` is never (1, 1) (R37) -/
  busy_done : ¬ (s.busy = true ∧ s.done = true)
  /-- `ERR = 1` implies `DONE = 1` (R37) -/
  err_done : s.err = true → s.done = true
  /-- `ERRCODE != 0x00` exactly when `ERR = 1` (R37) -/
  errCode_err : s.errCode ≠ 0 ↔ s.err = true
  /-- ERRCODE holds a defined code other than 0x04 (R37) -/
  errCode_defined : s.errCode ∈ definedCodes
  /-- IBUF is in canonical form -/
  ibuf_wf : Memory.wf s.ibuf = true
  /-- every byte of IBUF lies inside it (R80) -/
  ibuf_below : Memory.below Config.ibufSize s.ibuf = true
  /-- OBUF is in canonical form -/
  obuf_wf : Memory.wf s.obuf = true
  /-- the determined bytes of OBUF are those below OUT_LEN (R82) -/
  obuf_below : Memory.below s.outLen.toNat s.obuf = true
  /-- the result fits OBUF (R103) -/
  outLen_le : s.outLen.toNat ≤ Config.obufSize
  /-- K_MSG does not survive a command (R48) -/
  kMsg_none : s.kMsg = none

end Sys2Proof.Machine
end

