-- ==== Sys2Proof/Certificates/Slice0/Obligations.lean ====
section
/-! DEFINITION. The statements for the provers, from the numbered rules of spec/. -/

namespace Sys2Proof.Machine

/-! ### Words the statements share -/

/-- The command ended in success with `n` output bytes (R131). -/
structure EndedInSuccess (t : State) (n : Nat) : Prop where
  busy : t.busy = false
  done : t.done = true
  err : t.err = false
  errCode : t.errCode = 0
  outLen : t.outLen.toNat = n
  /-- the per-message key does not survive the command (R48) -/
  kMsg : t.kMsg = none

/-- The command ended with the engine error `e` (R410). -/
structure EndedInError (t : State) (e : EngineError) : Prop where
  busy : t.busy = false
  done : t.done = true
  err : t.err = true
  errCode : t.errCode = e.code
  outLen : t.outLen = 0
  /-- the per-message key does not survive the command (R48) -/
  kMsg : t.kMsg = none

/-- What every command leaves unchanged (R32): CMD, LEN0-LEN2 and every byte of IBUF; and the host's
accesses to come and what it has read. -/
structure OperandsKept (s t : State) : Prop where
  cmd : t.cmd = s.cmd
  len0 : t.len0 = s.len0
  len1 : t.len1 = s.len1
  len2 : t.len2 = s.len2
  ibuf : ∀ a, t.ibufByte a = s.ibufByte a
  pending : t.pending = s.pending
  reads : t.reads = s.reads

/-- The command `i` ends with the engine error `e` and leaves everything else as it was (R410). -/
def FailsWith (i : Instr) (s : State) (e : EngineError) : Prop :=
  ∃ t, exec i s = .next t ∧ EndedInError t e ∧ OperandsKept s t ∧ t.key = s.key

/-- The command `i` succeeds with `n` output bytes of which `P` holds, and keeps its operands and the
key store. -/
def SucceedsWith (i : Instr) (s : State) (n : Nat) (P : State → Prop) : Prop :=
  ∃ t, exec i s = .next t ∧ EndedInSuccess t n ∧ OperandsKept s t ∧ t.key = s.key ∧ P t

/-- The bytes of OBUF are those of `out`. -/
def Outputs (out : List Byte) (t : State) : Prop := ∀ j (h : j < out.length), t.obufByte j = out[j]

/-- The past-the-end offset of the IBUF bytes a command reads when its checks pass (R122). -/
def operandEnd (i : Instr) (s : State) : Nat :=
  match i with
  | .loadKeys => 80
  | .clear => 0
  | .combine _ => s.len0.toNat + s.len1.toNat
  | .keystream => s.len0.toNat
  | .vernamEnc => s.len0.toNat
  | .vernamDec => s.len0.toNat
  | .aesEnc => s.len0.toNat
  | .aesDec => s.len0.toNat
  | .encrypt => s.len0.toNat
  | .decrypt => s.len0.toNat

/-- The host's accesses a command in progress can still see: at most `delay` of them (assumption 5), and none
from the first poll on, which is repeated until the command has ended (R140); so a reset behind a poll is
not among them, the model's choice (assumption 23). -/
def reachedWhileBusy (s : State) : List HostOp :=
  (s.pending.take s.delay).takeWhile fun op => decide (op ≠ .poll)

/-- The engine errors each command may raise (R400); IllegalCommand comes from no command but from an
illegal word. -/
def mayRaise (i : Instr) : List EngineError :=
  match i with
  | .loadKeys => [.invalidKeyLength, .keysLocked]
  | .clear => []
  | .combine _ => [.lengthError]
  | .keystream => [.lengthError]
  | .vernamEnc => [.notKeyed, .lengthError]
  | .vernamDec => [.notKeyed, .lengthError, .invalidCiphertext]
  | .aesEnc => [.notKeyed, .lengthError]
  | .aesDec => [.notKeyed, .lengthError, .cipherIntegrityError]
  | .encrypt => [.notKeyed, .lengthError]
  | .decrypt => [.notKeyed, .lengthError, .cipherIntegrityError, .invalidCiphertext]

/-- Legality of a command word as rule R123 states it, on the word's number: OPC (bits 7:0) is one of the
ten opcodes, RSV (bits 31:12) is 0, and either OPC is COMBINE's or FN (bits 11:8) is 0. -/
def LegalCommandWord (w : Word) : Prop :=
  w.toNat % 2 ^ 8 ∈ [0x01, 0x02, 0x10, 0x11, 0x20, 0x21, 0x30, 0x31, 0x40, 0x41] ∧
    w.toNat / 2 ^ 12 = 0 ∧ (w.toNat % 2 ^ 8 = 0x11 ∨ w.toNat / 2 ^ 8 % 2 ^ 4 = 0)

/-- The match and mask of every row of opcode_table.json, with the command of the row. -/
def maskedRows : List (Word × Word × (BitVec 4 → Instr)) := [
  (0xFFFFFFFF, 0x00000001, fun _ => .loadKeys), (0xFFFFFFFF, 0x00000002, fun _ => .clear),
  (0xFFFFFFFF, 0x00000010, fun _ => .keystream), (0xFFFFF0FF, 0x00000011, fun fn => .combine fn),
  (0xFFFFFFFF, 0x00000020, fun _ => .vernamEnc), (0xFFFFFFFF, 0x00000021, fun _ => .vernamDec),
  (0xFFFFFFFF, 0x00000030, fun _ => .aesEnc), (0xFFFFFFFF, 0x00000031, fun _ => .aesDec),
  (0xFFFFFFFF, 0x00000040, fun _ => .encrypt), (0xFFFFFFFF, 0x00000041, fun _ => .decrypt)]

end Sys2Proof.Machine

open Sys2Proof Sys2Proof.Machine

/-! ### Encoding -/

/-- R127: the complete command words of the ten commands decode to them. -/
def Obligations.CommandWordsDecode : Prop :=
  decode 0x00000001 = .ok .loadKeys ∧ decode 0x00000002 = .ok .clear ∧
  decode 0x00000010 = .ok .keystream ∧ decode 0x00000020 = .ok .vernamEnc ∧
  decode 0x00000021 = .ok .vernamDec ∧ decode 0x00000030 = .ok .aesEnc ∧
  decode 0x00000031 = .ok .aesDec ∧ decode 0x00000040 = .ok .encrypt ∧
  decode 0x00000041 = .ok .decrypt ∧ decode 0x00000611 = .ok (.combine 0x6) ∧
  ∀ fn : BitVec 4, decode (0x00000011 ||| (fn.zeroExtend 32 <<< 8)) = .ok (.combine fn)

/-- Decoding and encoding are inverse over all 2^32 words: a word decodes to a command exactly when it
is that command's word. So no two words have one meaning, no word has two, and no bit is dropped. -/
def Obligations.DecodeIsInverseOfEncode : Prop :=
  ∀ (w : Word) (i : Instr), decode w = .ok i ↔ w = encode i

/-- R123: a word is legal exactly when OPC is one of the ten opcodes, RSV = 0, and OPC is COMBINE's or
FN = 0. -/
def Obligations.WordDecodesExactlyWhenLegal : Prop :=
  ∀ w : Word, (∃ i, decode w = .ok i) ↔ LegalCommandWord w

/-- The decoder reads every row of the opcode table by its mask and match, with FN from bits 11:8. -/
def Obligations.DecodeAgreesWithMaskAndMatch : Prop :=
  ∀ row ∈ maskedRows, ∀ w : Word,
    (w &&& row.1 = row.2.1 ↔ decode w = .ok (row.2.2 (w.extractLsb' 8 4)))

/-! ### The command cycle -/

/-- A due completion runs the command decoded from CMD (R131, R133), and a fetched word is such a word
(R100); on the host's turn a step is the host's next access in program order (R94), after which one
host step less remains before the completion; with no access left and no command in progress a step
changes nothing (R451). Who acts next, that `withFetchWord` launches with delay 0, and that the host's
program stands in `pending` are the model's choices (assumptions 5 and 10). -/
def Obligations.StepRunsTheDecodedCommand : Prop :=
  (∀ (s : State) (i : Instr), s.completes = true → decode s.cmd = .ok i → step s = exec i s) ∧
  (∀ (s : State) (i : Instr), step (s.withFetchWord 32 (encode i).toNat) =
    exec i (s.withFetchWord 32 (encode i).toNat)) ∧
  (∀ (s : State) (w : Word), (s.withFetchWord 32 w.toNat).cmd = w ∧
    (s.withFetchWord 32 w.toNat).completes = true) ∧
  (∀ (s : State) (op : HostOp) (rest : List HostOp), s.completes = false →
    s.pending = op :: rest →
    step s = hostStep op { s with pending := rest, delay := s.delay - 1 }) ∧
  (∀ s : State, s.busy = false → s.pending = [] → step s = .next s)

/-- R404: an illegal word in CMD raises IllegalCommand; the word stays readable in CMD. -/
def Obligations.IllegalWordRaisesIllegalCommand : Prop :=
  ∀ s : State, s.completes = true → ¬ LegalCommandWord s.cmd →
    ∃ t, step s = .next t ∧ EndedInError t .illegalCommand ∧ OperandsKept s t ∧ t.key = s.key

/-- R130: a host write to CMD while BUSY = 0 launches the command, as one step, and leaves everything
else unchanged; while BUSY = 1 it is a protocol violation. -/
def Obligations.CmdWriteLaunches : Prop :=
  ∀ (s : State) (w : Word),
    (s.busy = false →
      ∃ t, hostStep (.regWrite 32 0x00 w) s = .next t ∧ t.cmd = w ∧ t.busy = true ∧
        t.done = false ∧ t.err = false ∧ t.errCode = 0 ∧ t.eng = .busy ∧ t.outLen = s.outLen ∧
        t.len0 = s.len0 ∧ t.len1 = s.len1 ∧ t.len2 = s.len2 ∧ t.key = s.key ∧ t.keyed = s.keyed ∧
        (∀ a, t.ibufByte a = s.ibufByte a) ∧ (∀ a, t.obufByte a = s.obufByte a) ∧
        t.kMsg = s.kMsg ∧ t.pending = s.pending ∧ t.reads = s.reads) ∧
    (s.busy = true → hostStep (.regWrite 32 0x00 w) s = .fault .hostProtocolViolation)

/-- R471: every launched command completes. Of the accesses the host comes to before then
(`reachedWhileBusy`) none may be undefined or write an operand; those after its first poll, or past the
delay, are free, since a poll does not end while BUSY (R140). Within the delay drawn for the command plus
one step BUSY is 0, and DONE is 1 unless a reset is among the accesses reached, which ends the command
too. The bound by `delay` is the model's choice (assumption 5); the statement holds for every value of
it. That a poll loop is one place in `pending`, so that a reset standing behind a poll is not reached before
the command ends, is the model's choice too (assumption 23): R450 lets reset arrive at any time. -/
def Obligations.LaunchedCommandCompletes : Prop :=
  ∀ s : State, s.busy = true →
    (∀ op ∈ reachedWhileBusy s, op.wf = true ∧ writesOperand op = false) →
    ∃ k, k ≤ s.delay + 1 ∧ ∃ t : State, Host.Core.run core k s = .next t ∧ t.busy = false ∧
      (.reset ∉ reachedWhileBusy s → t.done = true)

/-- Every command, in every state, ends in a next state with BUSY = 0 and DONE = 1 (R131). -/
def Obligations.EveryCommandEnds : Prop :=
  ∀ (i : Instr) (s : State), ∃ t, exec i s = .next t ∧ t.busy = false ∧ t.done = true ∧
    (t.err = true ↔ t.errCode ≠ 0)

/-! ### The commands -/

/-- R161: LOAD_KEYS. -/
def Obligations.LoadKeysCommand : Prop :=
  decode 0x00000001 = .ok .loadKeys ∧ ∀ s : State,
    (s.key ≠ none → FailsWith .loadKeys s .keysLocked) ∧
    (s.key = none → (s.len0 ≠ 32 ∨ s.len1 ≠ 16 ∨ s.len2 ≠ 32) →
      FailsWith .loadKeys s .invalidKeyLength) ∧
    (s.key = none → s.len0 = 32 → s.len1 = 16 → s.len2 = 32 →
      ∃ t, exec .loadKeys s = .next t ∧ EndedInSuccess t 0 ∧ OperandsKept s t ∧ t.keyed = true ∧
        ∃ km, t.key = some km ∧
          (∀ j (h : j < 32), km.aes[j] = s.ibufByte j) ∧
          (∀ j (h : j < 16), km.iv[j] = s.ibufByte (32 + j)) ∧
          (∀ j (h : j < 32), km.vernam[j] = s.ibufByte (48 + j)))

/-- R165: CLEAR finishes with no output from every state, keyed or not. -/
def Obligations.ClearCommand : Prop :=
  decode 0x00000002 = .ok .clear ∧ ∀ s : State, SucceedsWith .clear s 0 fun _ => True

/-- R216 with the tail policies of R217: KEYSTREAM. Bit `8j + i` of the output, most-significant bit of a
byte first, is keystream bit `8j + i` below the bit count and 0 above it. -/
def Obligations.KeystreamCommand : Prop :=
  decode 0x00000010 = .ok .keystream ∧ ∀ s : State,
    ((s.len0.toNat > Config.ibufSize ∨
        outBytes Config.bytesOfTail s.len1.toNat > Config.obufSize) →
      FailsWith .keystream s .lengthError) ∧
    (s.len0.toNat ≤ Config.ibufSize → outBytes Config.bytesOfTail s.len1.toNat ≤ Config.obufSize →
      SucceedsWith .keystream s (outBytes Config.bytesOfTail s.len1.toNat) fun t =>
        ∀ j, j < outBytes Config.bytesOfTail s.len1.toNat → ∀ i, i < 8 →
          (t.obufByte j).getLsbD (7 - i) =
            (decide (8 * j + i < s.len1.toNat) &&
              Config.ks ((List.range s.len0.toNat).map s.ibufByte) (8 * j + i)))

/-- R185: how many bytes the two tail policies give. -/
def Obligations.TailPolicyLengths : Prop :=
  ∀ (tail : Config.TailPolicy) (bits : List Bool),
    (bytesOf tail bits).length = outBytes tail bits.length ∧
    outBytes .zeroPad bits.length = (bits.length + 7) / 8 ∧
    outBytes .truncate bits.length = bits.length / 8 ∧
    ∀ j, j < outBytes tail bits.length → ∀ i, i < 8 →
      ((bytesOf tail bits).getD j 0).getLsbD (7 - i) = bits.getD (8 * j + i) false

/-- R187: COMBINE: every bit of the first `min(a, b)` bytes is the bit function FN of the two operands'
bits, `FN[2*A + B]`. -/
def Obligations.CombineCommand : Prop :=
  ∀ (fn : BitVec 4) (s : State),
    decode (0x00000011 ||| (fn.zeroExtend 32 <<< 8)) = .ok (.combine fn) ∧
    (s.len0.toNat + s.len1.toNat > Config.ibufSize → FailsWith (.combine fn) s .lengthError) ∧
    (s.len0.toNat + s.len1.toNat ≤ Config.ibufSize →
      SucceedsWith (.combine fn) s (min s.len0.toNat s.len1.toNat) fun t =>
        ∀ j, j < min s.len0.toNat s.len1.toNat → ∀ i, i < 8 →
          (t.obufByte j).getLsbD i =
            fn.getLsbD (2 * ((s.ibufByte j).getLsbD i).toNat
              + ((s.ibufByte (s.len0.toNat + j)).getLsbD i).toNat))

/-- R243 in the byte form of R246: VERNAM_ENC: the draw in the clear, then the plaintext XOR the
keystream of the draw and the long-term key. -/
def Obligations.VernamEncCommand : Prop :=
  decode 0x00000020 = .ok .vernamEnc ∧ ∀ s : State,
    (s.key = none → FailsWith .vernamEnc s .notKeyed) ∧
    ∀ km, s.key = some km →
      (s.len0.toNat > Config.ibufSize → FailsWith .vernamEnc s .lengthError) ∧
      (s.len0.toNat ≤ Config.ibufSize → SucceedsWith .vernamEnc s (s.len0.toNat + 32) fun t =>
        (∀ j (h : j < 32), t.obufByte j = (Config.trng s.draws)[j]) ∧
        ∀ j, j < s.len0.toNat → ∀ i, i < 8 →
          (t.obufByte (32 + j)).getLsbD (7 - i) =
            ((s.ibufByte j).getLsbD (7 - i) ^^
              Config.ks ((Config.trng s.draws).toList ++ km.vernam.toList) (8 * j + i)))

/-- R244: VERNAM_DEC, with InvalidCiphertext below 32 bytes. -/
def Obligations.VernamDecCommand : Prop :=
  decode 0x00000021 = .ok .vernamDec ∧ ∀ s : State,
    (s.key = none → FailsWith .vernamDec s .notKeyed) ∧
    ∀ km, s.key = some km →
      (s.len0.toNat > Config.ibufSize → FailsWith .vernamDec s .lengthError) ∧
      (s.len0.toNat < 32 → FailsWith .vernamDec s .invalidCiphertext) ∧
      (32 ≤ s.len0.toNat → s.len0.toNat ≤ Config.ibufSize →
        SucceedsWith .vernamDec s (s.len0.toNat - 32) fun t =>
          ∀ j, j < s.len0.toNat - 32 → ∀ i, i < 8 →
            (t.obufByte j).getLsbD (7 - i) =
              ((s.ibufByte (32 + j)).getLsbD (7 - i) ^^
                Config.ks ((List.range 32).map s.ibufByte ++ km.vernam.toList) (8 * j + i)))

/-- R290: AES_ENC: the CBC encryption of the operand and its PKCS#7 padding. -/
def Obligations.AesEncCommand : Prop :=
  decode 0x00000030 = .ok .aesEnc ∧ ∀ s : State,
    (s.key = none → FailsWith .aesEnc s .notKeyed) ∧
    ∀ km, s.key = some km →
      (s.len0.toNat > Config.ibufSize → FailsWith .aesEnc s .lengthError) ∧
      (s.len0.toNat ≤ Config.ibufSize →
        SucceedsWith .aesEnc s (16 * (s.len0.toNat / 16 + 1)) fun t =>
          Outputs (cbcE km.aes km.iv ((List.range s.len0.toNat).map s.ibufByte ++
            List.replicate (16 - s.len0.toNat % 16)
              (BitVec.ofNat 8 (16 - s.len0.toNat % 16)))) t)

/-- R291: AES_DEC: CipherIntegrityError for a length of 0 or not a multiple of 16, or when the decrypted
data does not end in `p` bytes all equal to `p` with `1 <= p <= 16`; else all but those `p` bytes. -/
def Obligations.AesDecCommand : Prop :=
  decode 0x00000031 = .ok .aesDec ∧ ∀ s : State,
    (s.key = none → FailsWith .aesDec s .notKeyed) ∧
    ∀ km, s.key = some km →
      (s.len0.toNat > Config.ibufSize → FailsWith .aesDec s .lengthError) ∧
      (s.len0.toNat ≤ Config.ibufSize → (s.len0.toNat = 0 ∨ s.len0.toNat % 16 ≠ 0) →
        FailsWith .aesDec s .cipherIntegrityError) ∧
      (s.len0.toNat ≤ Config.ibufSize → s.len0.toNat ≠ 0 → s.len0.toNat % 16 = 0 →
        ∀ x p, x = cbcD km.aes km.iv ((List.range s.len0.toNat).map s.ibufByte) →
          p = (x.getD (s.len0.toNat - 1) 0).toNat →
          ((1 ≤ p ∧ p ≤ 16 ∧ ∀ j, j < p → (x.getD (s.len0.toNat - 1 - j) 0).toNat = p) →
            SucceedsWith .aesDec s (s.len0.toNat - p) (Outputs (x.take (s.len0.toNat - p)))) ∧
          (¬ (1 ≤ p ∧ p ≤ 16 ∧ ∀ j, j < p → (x.getD (s.len0.toNat - 1 - j) 0).toNat = p) →
            FailsWith .aesDec s .cipherIntegrityError))

/-- R322: ENCRYPT: the Vernam layer with the draw, then the AES layer. -/
def Obligations.EncryptCommand : Prop :=
  decode 0x00000040 = .ok .encrypt ∧ ∀ s : State,
    (s.key = none → FailsWith .encrypt s .notKeyed) ∧
    ∀ km, s.key = some km →
      (s.len0.toNat > Config.ibufSize → FailsWith .encrypt s .lengthError) ∧
      (s.len0.toNat ≤ Config.ibufSize →
        SucceedsWith .encrypt s (16 * ((s.len0.toNat + 32) / 16 + 1)) (Outputs
          (aesEncBytes km (vernamEncBytes Config.ks ((List.range s.len0.toNat).map s.ibufByte)
            km.vernam.toList (Config.trng s.draws).toList))))

/-- R323: DECRYPT: the AES layer, whose error ends the command, then the Vernam layer. -/
def Obligations.DecryptCommand : Prop :=
  decode 0x00000041 = .ok .decrypt ∧ ∀ s : State,
    (s.key = none → FailsWith .decrypt s .notKeyed) ∧
    ∀ km, s.key = some km →
      (s.len0.toNat > Config.ibufSize → FailsWith .decrypt s .lengthError) ∧
      (s.len0.toNat ≤ Config.ibufSize →
        (∀ e, aesDecBytes km ((List.range s.len0.toNat).map s.ibufByte) = .error e →
          FailsWith .decrypt s .cipherIntegrityError) ∧
        (∀ v, aesDecBytes km ((List.range s.len0.toNat).map s.ibufByte) = .ok v →
          (v.length < 32 → FailsWith .decrypt s .invalidCiphertext) ∧
          (32 ≤ v.length → SucceedsWith .decrypt s (v.length - 32) (Outputs
            (vernamBody Config.ks (v.take 32 ++ km.vernam.toList) (v.drop 32))))))

/-- R326: a validly padded ciphertext of 16 or 32 bytes is too short for the Vernam stage, and every
output of ENCRYPT is long enough. -/
def Obligations.CiphertextLengths : Prop :=
  ∀ (ks : List Byte → Nat → Bool) (km : KeyMaterial),
    (∀ (p : List Byte) (k : Vector Byte 32),
      (encryptBytes ks km p k.toList).length = 16 * ((p.length + 32) / 16 + 1) ∧
      p.length + 33 ≤ (encryptBytes ks km p k.toList).length ∧
      (encryptBytes ks km p k.toList).length ≤ p.length + 48 ∧
      48 ≤ (encryptBytes ks km p k.toList).length) ∧
    (∀ c v, aesDecBytes km c = .ok v →
      ((c.length = 16 ∨ c.length = 32) →
        v.length < 32 ∧ decryptBytes ks km c = .error .invalidCiphertext) ∧
      (∀ out, decryptBytes ks km c = .ok out → ∃ p, 1 ≤ p ∧ p ≤ 16 ∧
        v.length + p = c.length ∧ out.length + 32 + p = c.length))

/-! ### Whole-machine rules over the commands -/

/-- R32: no command changes CMD, LEN0-LEN2 or IBUF; R45: none but LOAD_KEYS changes the key store, and
LOAD_KEYS only while it is absent; R132, R405: only a successful VERNAM_ENC or ENCRYPT takes a TRNG draw.
Each completion also takes the one number of the OBUF bytes it leaves unspecified; that both count in
`draws` is the model's choice (assumptions 3, 4 and 20). -/
def Obligations.CommandsKeepOperandsAndKeys : Prop :=
  ∀ (i : Instr) (s t : State), exec i s = .next t →
    OperandsKept s t ∧ ((i ≠ .loadKeys ∨ s.key ≠ none) → t.key = s.key) ∧
    t.draws = s.draws + if t.err = false ∧ (i = .vernamEnc ∨ i = .encrypt) then 2 else 1

/-- R410: when a command ends with an engine error, ERR is set with the error's code, OUT_LEN is 0, DONE
is set, BUSY cleared, and the key store, CMD, LEN0-LEN2 and IBUF are unchanged. First for each command
with the errors it may raise (R400), then for every completion, an illegal word's too. -/
def Obligations.EngineErrorChangesOnlyTheReport : Prop :=
  (∀ (i : Instr) (s t : State), exec i s = .next t → t.err = true →
    ∃ e ∈ mayRaise i, EndedInError t e ∧ OperandsKept s t ∧ t.key = s.key) ∧
  (∀ s t : State, s.completes = true → step s = .next t → t.err = true →
    ∃ e, EndedInError t e ∧ OperandsKept s t ∧ t.key = s.key)

/-- R35: two states that agree on LEN0-LEN2, the IBUF bytes the command reads, the key store and, for the
two drawing commands, the draw, give the same result. That the draw is a function of the field `draws` is the
model's choice (assumption 3). Of a command that fails its checks this asks more than R35 does: it
reads no IBUF byte and takes no draw. -/
def Obligations.ResultDependsOnlyOnOperands : Prop :=
  ∀ (i : Instr) (s s' t t' : State), s'.len0 = s.len0 → s'.len1 = s.len1 → s'.len2 = s.len2 →
    s'.key = s.key → (∀ a, a < operandEnd i s → s'.ibufByte a = s.ibufByte a) →
    ((i = .vernamEnc ∨ i = .encrypt) → Config.trng s'.draws = Config.trng s.draws) →
    exec i s = .next t → exec i s' = .next t' →
    t'.err = t.err ∧ t'.errCode = t.errCode ∧ t'.outLen = t.outLen ∧ t'.key = t.key ∧
      ∀ j, j < t.outLen.toNat → t'.obufByte j = t.obufByte j

/-- CLEAR, KEYSTREAM and COMBINE use no key (R406): replacing the key store, or removing it, changes
nothing but the key store. -/
def Obligations.KeyFreeCommandsIgnoreTheKeys : Prop :=
  ∀ (i : Instr) (s : State) (key : Option KeyMaterial),
    (i = .clear ∨ i = .keystream ∨ ∃ fn, i = .combine fn) →
    ∃ t, exec i s = .next t ∧ exec i { s with key := key } = .next { t with key := key }

/-- R453: a loaded key store is changed by no step but a reset. -/
def Obligations.KeysAreLockedUntilReset : Prop :=
  ∀ (s t : State) (km : KeyMaterial), s.key = some km → step s = .next t →
    t.key = some km ∨
      (t.key = none ∧ s.completes = false ∧ ∃ rest, s.pending = .reset :: rest)

/-! ### The host's accesses -/

/-- R33, R36, R41 to R43: what a host read of each register returns; for OUT_LEN, while no command is in
progress. That OUT_LEN returns its value before the host has read DONE = 1 too is the model's choice
(assumption 25). -/
def Obligations.RegisterWindowReads : Prop :=
  ∀ s : State, ∀ off, off < 0x40 → off % 4 = 0 → (s.busy = false ∨ off ≠ 0x14) →
    ∃ t v, hostStep (.regRead 32 off) s = .next t ∧ t = { s with reads := .word v :: s.reads } ∧
      (off = 0x00 → v = s.cmd) ∧ (off = 0x04 → v = s.status) ∧ (off = 0x08 → v = s.len0) ∧
      (off = 0x0C → v = s.len1) ∧ (off = 0x10 → v = s.len2) ∧ (off = 0x14 → v = s.outLen) ∧
      (off = 0x18 → v.toNat = Config.ibufSize) ∧ (off = 0x1C → v.toNat = Config.ibufSize + 48) ∧
      (0x20 ≤ off → v = 0)

/-- R36: the fields of the STATUS word; bits 7:4 and 31:16 read 0. -/
def Obligations.StatusFields : Prop :=
  ∀ s : State, s.status.getLsbD 0 = s.key.isSome ∧ s.status.getLsbD 1 = s.busy ∧
    s.status.getLsbD 2 = s.done ∧ s.status.getLsbD 3 = s.err ∧
    s.status.extractLsb' 4 4 = 0 ∧ s.status.extractLsb' 8 8 = s.errCode ∧
    s.status.extractLsb' 16 16 = 0

/-- R43: writes to STATUS, OUT_LEN, IBUF_SZ, OBUF_SZ and the reserved offsets change no state, in every
state, BUSY or not, and reserved offsets read as zero. So do writes to OBUF (R82). -/
def Obligations.ReadOnlyWritesAreIgnored : Prop :=
  ∀ s : State,
    (∀ off v, off % 4 = 0 → off < 0x40 → (off = 0x04 ∨ 0x14 ≤ off) →
      hostStep (.regWrite 32 off v) s = .next s) ∧
    (∀ off, off % 4 = 0 → 0x20 ≤ off → off < 0x40 →
      hostStep (.regRead 32 off) s = .next { s with reads := .word 0 :: s.reads }) ∧
    (∀ off v, off < Config.obufSize → hostStep (.bufWrite .obuf off v) s = .next s)

/-- R39: every 32-bit value can be written to LEN0-LEN2, which store it and change nothing else, while BUSY
= 0; that this holds before the host has read DONE = 1 too is the model's choice (assumption 26). -/
def Obligations.LenWritesStoreTheValue : Prop :=
  ∀ (s : State) (v : Word), s.busy = false →
    hostStep (.regWrite 32 0x08 v) s = .next { s with len0 := v } ∧
    hostStep (.regWrite 32 0x0C v) s = .next { s with len1 := v } ∧
    hostStep (.regWrite 32 0x10 v) s = .next { s with len2 := v }

/-- R85: a REG access of another width, or not aligned, or at an offset from 0x40 on is a
RegAccessFault, and no other register access is one. That this comes before the busy check is the model's choice
(assumption 9). -/
def Obligations.RegAccessFaults : Prop :=
  ∀ (s : State) (width off : Nat) (v : Word),
    ((width ≠ 32 ∨ off % 4 ≠ 0 ∨ 0x40 ≤ off) ↔
      hostStep (.regWrite width off v) s = .fault .regAccessFault) ∧
    ((width ≠ 32 ∨ off % 4 ≠ 0 ∨ 0x40 ≤ off) ↔
      hostStep (.regRead width off) s = .fault .regAccessFault)

/-- R86: a byte access at an offset from IBUF_SIZE (IBUF) or OBUF_SIZE (OBUF) on is a BufAccessFault, and
no other buffer access is one. That this comes before the busy check is the model's choice
(assumption 9). -/
def Obligations.BufAccessFaults : Prop :=
  ∀ (s : State) (off : Nat) (v : Byte),
    (Config.ibufSize ≤ off ↔ hostStep (.bufWrite .ibuf off v) s = .fault .bufAccessFault) ∧
    (Config.ibufSize ≤ off ↔ hostStep (.bufRead .ibuf off) s = .fault .bufAccessFault) ∧
    (Config.ibufSize + 48 ≤ off ↔ hostStep (.bufWrite .obuf off v) s = .fault .bufAccessFault) ∧
    (Config.ibufSize + 48 ≤ off ↔ hostStep (.bufRead .obuf off) s = .fault .bufAccessFault)

/-- R460: while BUSY a write of CMD, LEN0-LEN2 or an IBUF byte is a HostProtocolViolation, and a write of a
read-only register, a reserved offset or OBUF is ignored; while not BUSY the former is performed: CMD
takes the word and launches it (R130), LEN0-LEN2 and the IBUF byte take the value (R87). That BUSY decides,
and not whether the host has read DONE = 1 (R95), is the model's choice (assumption 26). -/
def Obligations.OperandWritesWhileBusyFault : Prop :=
  ∀ (s : State) (v : Word) (b : Byte) (a : Nat), a < Config.ibufSize →
    (s.busy = true →
      (∀ off ∈ [0x00, 0x08, 0x0C, 0x10],
        hostStep (.regWrite 32 off v) s = .fault .hostProtocolViolation) ∧
      hostStep (.bufWrite .ibuf a b) s = .fault .hostProtocolViolation ∧
      (∀ a', a' < Config.obufSize → hostStep (.bufWrite .obuf a' b) s = .next s) ∧
      ∀ off, off % 4 = 0 → off < 0x40 → (off = 0x04 ∨ 0x14 ≤ off) →
        hostStep (.regWrite 32 off v) s = .next s) ∧
    (s.busy = false →
      (∃ t, hostStep (.regWrite 32 0x00 v) s = .next t ∧ t.cmd = v ∧ t.busy = true) ∧
      (∃ t, hostStep (.regWrite 32 0x08 v) s = .next t ∧ t.len0 = v) ∧
      (∃ t, hostStep (.regWrite 32 0x0C v) s = .next t ∧ t.len1 = v) ∧
      (∃ t, hostStep (.regWrite 32 0x10 v) s = .next t ∧ t.len2 = v) ∧
      ∃ t, hostStep (.bufWrite .ibuf a b) s = .next t ∧ t.ibufByte a = b)

/-- R81, R87: a host write of an IBUF byte stores it there, and every other byte of IBUF, and everything
else, stays, while BUSY = 0; that this holds before the host has read DONE = 1 too is the model's choice
(assumption 26). -/
def Obligations.IbufWriteStoresTheByte : Prop :=
  ∀ (s : State) (a : Nat) (b : Byte), s.busy = false → Memory.wf s.ibuf = true →
    a < Config.ibufSize →
    ∃ t, hostStep (.bufWrite .ibuf a b) s = .next t ∧ t.ibufByte a = b ∧
      (∀ a', a' ≠ a → t.ibufByte a' = s.ibufByte a') ∧ Memory.wf t.ibuf = true ∧
      t = { s with ibuf := t.ibuf }

/-- R87: host reads and polls change no state of the LCE; only what the host has read, the count of draws
and, for a poll, the accesses to come: R140 has a poll read STATUS and repeats it exactly until that
returns BUSY = 0 and DONE = 1. These three fields are the model's own (assumption 14). -/
def Obligations.HostReadsChangeNothing : Prop :=
  ∀ (s t : State) (op : HostOp),
    ((∃ width off, op = .regRead width off) ∨ (∃ b off, op = .bufRead b off) ∨ op = .poll) →
    hostStep op s = .next t →
    (∃ v, t = { s with reads := v :: s.reads, draws := t.draws, pending := t.pending } ∧
      (op = .poll → v = .word s.status)) ∧
    t.pending = if op = .poll ∧ (s.busy = true ∨ s.done = false) then .poll :: s.pending
      else s.pending

/-- R461: reads while BUSY: every register but OUT_LEN and every IBUF byte return their values; OUT_LEN
and every OBUF byte return a free value. What the model records of a read, and the count of draws, are its
own (assumptions 4 and 14). -/
def Obligations.ReadsWhileBusy : Prop :=
  ∀ s : State, s.busy = true →
    (∀ off, off < 0x40 → off % 4 = 0 → off ≠ 0x14 →
      hostStep (.regRead 32 off) s =
        .next { s with reads := .word (s.regValue (regAt off)) :: s.reads }) ∧
    (∀ a, a < Config.ibufSize →
      hostStep (.bufRead .ibuf a) s = .next { s with reads := .byte (s.ibufByte a) :: s.reads }) ∧
    hostStep (.regRead 32 0x14) s =
      .next { s with reads := .word (Config.outLenWhileBusy s.draws) :: s.reads,
                     draws := s.draws + 1 } ∧
    (∀ a, a < Config.obufSize → hostStep (.bufRead .obuf a) s =
      .next { s with reads := .byte (Config.obufWhileBusy s.draws) :: s.reads,
                     draws := s.draws + 1 })

/-- R462: while no command is in progress a host read of a buffer byte returns that byte and changes
nothing else: in every such state, and so after every command. That OBUF returns the result before the
host has read DONE = 1 too is the model's choice (assumption 25); the record of the read is the model's
own (assumption 14). -/
def Obligations.ObufReadsReturnTheResult : Prop :=
  (∀ s : State, s.busy = false →
    (∀ a, a < Config.ibufSize → hostStep (.bufRead .ibuf a) s =
      .next { s with reads := .byte (s.ibufByte a) :: s.reads }) ∧
    (∀ a, a < Config.obufSize → hostStep (.bufRead .obuf a) s =
      .next { s with reads := .byte (s.obufByte a) :: s.reads })) ∧
  (∀ (i : Instr) (s t : State) (j : Nat), exec i s = .next t → j < Config.obufSize →
    hostStep (.bufRead .obuf j) t = .next { t with reads := .byte (t.obufByte j) :: t.reads })

/-- R413: a step faults exactly when it is the host's turn and its access is one the hardware leaves
undefined or the busy protocol forbids; no step is refused. That the busy protocol forbids by BUSY alone
is the model's choice (assumption 26). -/
def Obligations.StepFaultsExactlyOnForbiddenAccess : Prop :=
  ∀ s : State, (∀ r, step s ≠ .refused r) ∧
    ((∃ f, step s = .fault f) ↔
      (s.completes = false ∧ ∃ op rest, s.pending = op :: rest ∧ allowed op s = false))

/-- R84: the three regions do not overlap on the host bus. -/
def Obligations.BusRegionsDoNotOverlap : Prop :=
  ∀ (r r' : Region) (off off' : Nat), off < regionSize r → off' < regionSize r' →
    busAddress r off = busAddress r' off' → r = r' ∧ off = off'

/-! ### Reset and the invariant -/

/-- R450: reset, from every state, BUSY or not, leaves every register 0, the key store absent and no
command in progress, and no byte of IBUF or OBUF determined (any value, assumptions 1 and 11). That it
keeps the host's pending accesses and reads is the model's choice
(assumption 11). -/
def Obligations.ResetInputResetsTheState : Prop :=
  ∀ s : State, ∃ t, hostStep .reset s = .next t ∧ t.cmd = 0 ∧ t.status = 0 ∧ t.len0 = 0 ∧
    t.len1 = 0 ∧ t.len2 = 0 ∧ t.outLen = 0 ∧ t.key = none ∧ t.eng = .idle ∧ t.kMsg = none ∧
    (∀ a, Memory.read? t.ibuf a = none) ∧ (∀ a, Memory.read? t.obuf a = none) ∧
    t.pending = s.pending ∧ t.reads = s.reads

/-- R51: the state after reset: the registers 0, the key store absent, no byte of IBUF or OBUF
determined. -/
def Obligations.ResetStateValues : Prop :=
  State.reset.cmd = 0 ∧ State.reset.status = 0 ∧ State.reset.keyed = false ∧
  State.reset.busy = false ∧ State.reset.done = false ∧ State.reset.err = false ∧
  State.reset.errCode = 0 ∧ State.reset.len0 = 0 ∧ State.reset.len1 = 0 ∧ State.reset.len2 = 0 ∧
  State.reset.outLen = 0 ∧ State.reset.key = none ∧ State.reset.eng = .idle ∧
  State.reset.kMsg = none ∧ (∀ a, Memory.read? State.reset.ibuf a = none) ∧
  (∀ a, Memory.read? State.reset.obuf a = none) ∧ (∀ off, 0x20 ≤ off → off < 0x40 → State.reset.regValue (regAt off) = 0) ∧
  (State.reset.regValue (regAt 0x18)).toNat = Config.ibufSize ∧
  (State.reset.regValue (regAt 0x1C)).toNat = Config.ibufSize + 48

/-- The invariant holds after reset, whatever accesses the host is to make. -/
def Obligations.ResetMeetsTheInvariant : Prop :=
  ∀ ops : List HostOp, State.Inv { State.reset with pending := ops }

/-- R37, R48, R82, R103: every step keeps the invariant: the STATUS flags are consistent, ERRCODE holds a
defined code, both buffers keep their canonical form and lie inside their sizes, the result fits OBUF
and no per-message key survives. -/
def Obligations.StepKeepsTheInvariant : Prop :=
  ∀ s t : State, s.Inv → step s = .next t → t.Inv

/-! ### Laws of the units -/

/-- R186, laws 1 to 7 of the bit-sequence operators. -/
def Obligations.BitOperatorLaws : Prop :=
  (∀ x, (bitsOf x).length = 8 * x.length) ∧
  (∀ tail x, bytesOf tail (bitsOf x) = x) ∧
  (∀ tail s, s.length % 8 = 0 → bitsOf (bytesOf tail s) = s) ∧
  (∀ a b op, combine (.finite a) (.finite b) op =
    .finite ((combine (.finite a) (.finite b) op).finiteBits) ∧
    (combine (.finite a) (.finite b) op).finiteBits.length = min a.length b.length) ∧
  (∀ a f op, combine (.finite a) (.stream f) op =
    .finite ((combine (.finite a) (.stream f) op).finiteBits) ∧
    (combine (.finite a) (.stream f) op).finiteBits.length = a.length) ∧
  (∀ f b op, combine (.stream f) (.finite b) op =
    .finite ((combine (.stream f) (.finite b) op).finiteBits) ∧
    (combine (.stream f) (.finite b) op).finiteBits.length = b.length) ∧
  (∀ f g op, combine (.stream f) (.stream g) op = .stream fun i => op (f i) (g i)) ∧
  (∀ a b, a.length ≤ b.length →
    combine (combine (.finite a) (.finite b) opXor) (.finite b) opXor = .finite a) ∧
  (∀ a f, combine (combine (.finite a) (.stream f) opXor) (.stream f) opXor = .finite a) ∧
  (∀ x y op, (combine (.finite (bitsOf x)) (.finite (bitsOf y)) op).finiteBits.length =
    8 * min x.length y.length) ∧
  (∀ tail x y, bytesOf tail (combine (.finite (bitsOf x)) (.finite (bitsOf y)) opXor).finiteBits =
    List.zipWith (· ^^^ ·) x y)

/-- R218: the keystream is the same for the same seed, and for `n1 <= n2` with `n1` a multiple of 8 the
output for `n1` is the first `n1 / 8` bytes of the output for `n2`. -/
def Obligations.KeystreamPrefix : Prop :=
  ∀ (ks : List Byte → Nat → Bool) (tail : Config.TailPolicy) (seed : List Byte) (n1 n2 : Nat),
    n1 ≤ n2 → n1 % 8 = 0 →
    keystreamBytes ks tail seed n1 = (keystreamBytes ks tail seed n2).take (n1 / 8) ∧
    (keystreamBytes ks tail seed n1).length = n1 / 8

/-- R245: the Vernam layer's round trip, for every keystream generator. -/
def Obligations.VernamRoundTrip : Prop :=
  ∀ (ks : List Byte → Nat → Bool) (p : List Byte) (vk k : Vector Byte 32),
    vernamDecBytes ks (vernamEncBytes ks p vk.toList k.toList) vk.toList = .ok p ∧
    (vernamEncBytes ks p vk.toList k.toList).length = 32 + p.length

/-- R273, R274: each S-box entry is the multiplicative inverse (0 for 0) under the affine map, and the
second table inverts the first. -/
def Obligations.SBoxIsInverseThenAffine : Prop :=
  ∀ x : Byte, invSbox (sbox x) = x ∧ ∃ b : Byte, ((x = 0 ∧ b = 0) ∨ gmul x b = 0x01) ∧
    sbox x = b ^^^ b.rotateLeft 1 ^^^ b.rotateLeft 2 ^^^ b.rotateLeft 3 ^^^ b.rotateLeft 4 ^^^ 0x63

/-- R279: `D_K(E_K(x)) = x` for every key and block. -/
def Obligations.InverseCipherUndoesCipher : Prop :=
  ∀ (k : Vector Byte 32) (x : Block), aesD k (aesE k x) = x

/-- R283, R284: the chaining of CBC, block by block: the first block is combined with the IV, the rest with
the block of ciphertext before it; and CBC decryption undoes CBC encryption. -/
def Obligations.CbcDecryptionUndoesEncryption : Prop :=
  (∀ (k : Vector Byte 32) (iv : Block) (x : List Byte), x.length % 16 = 0 →
    cbcD k iv (cbcE k iv x) = x ∧ (cbcE k iv x).length = x.length) ∧
  (∀ (a b : Block) (i : Nat) (h : i < 16), (blockXor a b)[i] = a[i] ^^^ b[i]) ∧
  (∀ (k : Vector Byte 32) (iv : Block), cbcE k iv [] = [] ∧ cbcD k iv [] = []) ∧
  (∀ (k : Vector Byte 32) (iv p : Block) (rest : List Byte), cbcE k iv (p.toList ++ rest) =
    (aesE k (blockXor p iv)).toList ++ cbcE k (aesE k (blockXor p iv)) rest) ∧
  (∀ (k : Vector Byte 32) (iv c : Block) (rest : List Byte), cbcD k iv (c.toList ++ rest) =
    (blockXor (aesD k c) iv).toList ++ cbcD k c rest)

/-- R281, R282: every padded message is validly padded, has the length the rule gives, and unpadding
gives the message back; and a validly padded sequence is the padding of what it unpads to. -/
def Obligations.PaddingIsValidAndRemoved : Prop :=
  (∀ m : List Byte, (pkcsPad m).length = 16 * (m.length / 16 + 1) ∧ validlyPadded (pkcsPad m) = true ∧
    pkcsUnpad (pkcsPad m) = m) ∧
  (∀ x : List Byte, x ≠ [] → x.length % 16 = 0 → validlyPadded x = true →
    pkcsPad (pkcsUnpad x) = x)

/-- R287: the AES layer's round trip, and its output is shorter than its input. -/
def Obligations.AesLayerRoundTrip : Prop :=
  ∀ km : KeyMaterial, (∀ m, aesDecBytes km (aesEncBytes km m) = .ok m) ∧
    (∀ c out, aesDecBytes km c = .ok out → out.length + 1 ≤ c.length)

/-- R324 at function level: decrypting an encryption gives the plaintext back, for every plaintext of
every length, every draw, every Key Material and every keystream generator. -/
def Obligations.DecryptInvertsEncrypt : Prop :=
  ∀ (ks : List Byte → Nat → Bool) (km : KeyMaterial) (p : List Byte) (k : Vector Byte 32),
    decryptBytes ks km (encryptBytes ks km p k.toList) = .ok p

/-- R324 at command level: ENCRYPT's output, copied into the IBUF of a machine with the same keys,
decrypts with ERR = 0 to the plaintext ENCRYPT was given. That the output must fit IBUF to be copied there
is the model's reading of R324 (assumption 27). -/
def Obligations.EncryptThenDecryptCommands : Prop :=
  ∀ (s t s' : State) (km : KeyMaterial), s.key = some km → s.len0.toNat ≤ Config.ibufSize →
    exec .encrypt s = .next t → t.outLen.toNat ≤ Config.ibufSize →
    s'.key = some km → s'.len0 = t.outLen →
    (∀ j, j < t.outLen.toNat → s'.ibufByte j = t.obufByte j) →
    SucceedsWith .decrypt s' s.len0.toNat (Outputs ((List.range s.len0.toNat).map s.ibufByte))

/-- R327: two encryptions of one plaintext under the same keys differ exactly when their draws
differ. -/
def Obligations.CiphertextsDifferExactlyWhenDrawsDiffer : Prop :=
  ∀ (ks : List Byte → Nat → Bool) (km : KeyMaterial) (p : List Byte) (k1 k2 : Vector Byte 32),
    encryptBytes ks km p k1.toList = encryptBytes ks km p k2.toList ↔ k1 = k2

/-- R280, R215: the known answers of AES-256 and SHA-256. -/
def Obligations.KnownAnswers : Prop :=
  aesE ⟨⟨(List.range 32).map (BitVec.ofNat 8)⟩, rfl⟩
      (Block.ofFn fun i => BitVec.ofNat 8 (17 * i)) =
    ⟨#[0x8e, 0xa2, 0xb7, 0xca, 0x51, 0x67, 0x45, 0xbf, 0xea, 0xfc, 0x49, 0x90, 0x4b, 0x49, 0x60,
      0x89], rfl⟩ ∧
  aesD ⟨⟨(List.range 32).map (BitVec.ofNat 8)⟩, rfl⟩
      ⟨#[0x8e, 0xa2, 0xb7, 0xca, 0x51, 0x67, 0x45, 0xbf, 0xea, 0xfc, 0x49, 0x90, 0x4b, 0x49, 0x60,
        0x89], rfl⟩ = Block.ofFn (fun i => BitVec.ofNat 8 (17 * i)) ∧
  sha256 [0x61, 0x62, 0x63] =
    [0xba, 0x78, 0x16, 0xbf, 0x8f, 0x01, 0xcf, 0xea, 0x41, 0x41, 0x40, 0xde, 0x5d, 0xae, 0x22,
      0x23, 0xb0, 0x03, 0x61, 0xa3, 0x96, 0x17, 0x7a, 0x9c, 0xb4, 0x10, 0xff, 0x61, 0xf2, 0x00,
      0x15, 0xad]

/-- R214: KS_REF is the concatenation of the digests `D(0)`, `D(1)`, ... read most-significant bit
first. -/
def Obligations.ReferenceKeystreamIsCounterMode : Prop :=
  ∀ (tail : Config.TailPolicy) (seed : List Byte) (m : Nat),
    keystreamBytes ksRef tail seed (256 * m) =
      (List.range m).flatMap fun i => sha256 (seed ++ be64 i)

/-! ### The host's wrapper -/

/-- R353: UTF-8 decoding inverts encoding, and a byte sequence is valid exactly when it is the encoding
of some sequence of scalar values. -/
def Obligations.Utf8RoundTrip : Prop :=
  (∀ t : List Char, utf8Decode (utf8Encode t) = some t) ∧
  (∀ (x : List Byte) (t : List Char), utf8Decode x = some t → utf8Encode t = x)

/-- R350, R351, R352, R356: what the wrapper makes of a text's length, of a payload and of the state its
accesses end in: LengthError when the text or the ciphertext does not fit IBUF, the engine's error when
ERR = 1, else the bytes of OBUF; a payload is decoded to its value, and bytes that are no UTF-8 or no
JSON text are a MalformedPayload. The JSON grammar and `JsonCodec` are the model's (assumption 13,
PRESUMED), so is the LengthError of `decryptDecode` (assumption 21), and that JSON_STRINGIFY gives a
valid text is assumed beside R354 (assumption 22). What a payload decodes to is JSON_PARSE of its text;
whether that deep-equals the value is the host's (assumption 24). -/
def Obligations.WrapperPayloadsAndErrors : Prop :=
  ∀ (α : Type) (j : JsonCodec α),
    (∀ v : α, jsonValid (j.stringify v) = true →
      decodePayload j (encodePayload j v) = .ok (j.parse (j.stringify v))) ∧
    (∀ x : List Byte, (utf8Decode x = none ∨ ∃ t, utf8Decode x = some t ∧ jsonValid t = false) →
      decodePayload j x = .error .malformedPayload) ∧
    (∀ v : α, (encodePayload j v).length > Config.ibufSize →
      encodeEncryptOps j v = .error (.engine 0x13)) ∧
    (∀ c : List Byte, c.length > Config.ibufSize → decryptDecodeOps c = .error (.engine 0x13)) ∧
    (∀ s : State, s.err = true → encodeEncryptAnswer s = .error (.engine s.errCode) ∧
      decryptDecodeAnswer j s = .error (.engine s.errCode)) ∧
    (∀ s : State, s.err = false →
      encodeEncryptAnswer s = .ok ((List.range s.outLen.toNat).map s.obufByte) ∧
      decryptDecodeAnswer j s = decodePayload j ((List.range s.outLen.toNat).map s.obufByte)) ∧
    WrapperError.malformedPayload.code = 0x04

/-- R355: on a keyed LCE with no command in progress, the accesses of `encodeEncrypt(v)`, run to their end,
answer a ciphertext, and when that fits IBUF the accesses of `decryptDecode` on it, run from there,
answer a value that deep-equals `v`; through ENCRYPT and DECRYPT, whatever the draw, the delays and the
keystream. The host must have `JSON_PARSE(JSON_STRINGIFY(v))` deep-equal to `v` (R354) and give a valid
JSON text (assumption 22). The spec does not define deep equality: here it is any relation `deepEq` on
the host's values, equality among them (assumption 24). That the ciphertext must fit IBUF too, not only
the encoding of `v`, is the model's reading of R355 (assumption 27). The JSON grammar is PRESUMED (assumption 13), and
that a program stands in `pending` is the model's choice (assumption 10). -/
def Obligations.JsonWrapperRoundTrip : Prop :=
  ∀ (α : Type) (j : JsonCodec α) (deepEq : α → α → Prop) (v : α) (s : State) (km : KeyMaterial),
    deepEq (j.parse (j.stringify v)) v → jsonValid (j.stringify v) = true →
    (encodePayload j v).length ≤ Config.ibufSize →
    s.key = some km → s.busy = false → Memory.wf s.ibuf = true →
    ∃ ops k t c, encodeEncryptOps j v = .ok ops ∧
      Host.Core.run core k { s with pending := ops } = .next t ∧ t.pending = [] ∧
      t.busy = false ∧ t.key = some km ∧ encodeEncryptAnswer t = .ok c ∧
      c.length = 16 * (((encodePayload j v).length + 32) / 16 + 1) ∧
      (c.length ≤ Config.ibufSize →
        ∃ ops' k' u w, decryptDecodeOps c = .ok ops' ∧
          Host.Core.run core k' { t with pending := ops' } = .next u ∧ u.pending = [] ∧
          u.busy = false ∧ decryptDecodeAnswer j u = .ok w ∧ deepEq w v)
end

