-- ==== Sys2Proof/Laws/Aes.lean ====
section
/-! SUPPORT. Blocks byte by byte and cell by cell, the lengths of the AES layer's functions, and how the
field product distributes. -/

namespace Sys2Proof.Machine

/-- Byte `i` of a block made of `f` is `f i`. -/
theorem Block.byte_ofFn (f : Nat → Byte) (i : Nat) (h : i < 16) : (Block.ofFn f).byte i = f i := by
  interval_cases i <;> rfl

/-- Blocks with the same bytes are equal. -/
theorem Block.ext_byte {a b : Block} (h : ∀ i, i < 16 → a.byte i = b.byte i) : a = b := by
  apply Vector.ext
  intro i hi
  have := h i hi
  simp only [Block.byte] at this
  rw [List.getD_eq_getElem _ _ (by simpa using hi),
    List.getD_eq_getElem _ _ (by simpa using hi)] at this
  simpa using this

/-- The cell in row `r`, column `c` of a state made of `f` is `f r c`. -/
theorem Block.cell_ofCells (f : Nat → Nat → Byte) (r c : Nat) (hr : r < 4) (hc : c < 4) :
    (Block.ofCells f).cell r c = f r c := by
  simp only [Block.cell, Block.ofCells]
  rw [Block.byte_ofFn _ _ (by omega)]
  congr 1 <;> omega

/-- States with the same cells are equal. -/
theorem Block.ext_cell {a b : Block} (h : ∀ r c, r < 4 → c < 4 → a.cell r c = b.cell r c) :
    a = b := by
  apply Block.ext_byte
  intro i hi
  have := h (i % 4) (i / 4) (by omega) (by omega)
  simp only [Block.cell] at this
  rwa [show i % 4 + 4 * (i / 4) = i by omega] at this

theorem gmul_eq (a b : Byte) : gmul a b =
    (if b.getLsbD 0 then xtimeIter 0 a else 0) ^^^ (if b.getLsbD 1 then xtimeIter 1 a else 0) ^^^
    (if b.getLsbD 2 then xtimeIter 2 a else 0) ^^^ (if b.getLsbD 3 then xtimeIter 3 a else 0) ^^^
    (if b.getLsbD 4 then xtimeIter 4 a else 0) ^^^ (if b.getLsbD 5 then xtimeIter 5 a else 0) ^^^
    (if b.getLsbD 6 then xtimeIter 6 a else 0) ^^^ (if b.getLsbD 7 then xtimeIter 7 a else 0) := by
  simp [gmul, List.range_succ]

/-- The field product distributes over addition in its second factor (R272). -/
theorem gmul_xor (a b c : Byte) : gmul a (b ^^^ c) = gmul a b ^^^ gmul a c := by
  have h : ∀ (p q : Bool) (x : Byte),
      (if (p ^^ q) = true then x else 0) = (if p then x else 0) ^^^ (if q then x else 0) := by
    intro p q x
    cases p <;> cases q <;> simp
  simp only [gmul_eq, BitVec.getLsbD_xor, h]
  ac_rfl

@[simp] theorem blocksOf_length (m : Nat) (x : List Byte) : (blocksOf m x).length = m := by
  induction m generalizing x with
  | zero => rfl
  | succ m ih => simp [blocksOf, ih]

@[simp] theorem bytesOfBlocks_length (bs : List Block) :
    (bytesOfBlocks bs).length = 16 * bs.length := by
  simp [bytesOfBlocks, List.length_flatMap, mul_comm]

@[simp] theorem cbcEncBlocks_length (e : Block → Block) (prev : Block) (ps : List Block) :
    (cbcEncBlocks e prev ps).length = ps.length := by
  induction ps generalizing prev with
  | nil => rfl
  | cons p ps ih => simp [cbcEncBlocks, ih]

@[simp] theorem cbcDecBlocks_length (d : Block → Block) (prev : Block) (cs : List Block) :
    (cbcDecBlocks d prev cs).length = cs.length := by
  induction cs generalizing prev with
  | nil => rfl
  | cons c cs ih => simp [cbcDecBlocks, ih]

@[simp] theorem cbcE_length (k : Vector Byte 32) (iv : Block) (x : List Byte) :
    (cbcE k iv x).length = 16 * (x.length / 16) := by simp [cbcE]

@[simp] theorem cbcD_length (k : Vector Byte 32) (iv : Block) (y : List Byte) :
    (cbcD k iv y).length = 16 * (y.length / 16) := by simp [cbcD]

@[simp] theorem pkcsPad_length (m : List Byte) :
    (pkcsPad m).length = 16 * (m.length / 16 + 1) := by
  simp [pkcsPad]
  omega

@[simp] theorem aesEncBytes_length (km : KeyMaterial) (m : List Byte) :
    (aesEncBytes km m).length = 16 * (m.length / 16 + 1) := by
  simp only [aesEncBytes, cbcE_length, pkcsPad_length]
  omega

end Sys2Proof.Machine
end

