-- ==== Sys2Proof/Laws/BitSequence.lean ====
section
/-! SUPPORT. The bit-sequence operators bit by bit: what one output bit of each is. -/

namespace Sys2Proof.Machine

@[simp] theorem bitsOfByte_length (b : Byte) : (bitsOfByte b).length = 8 := by simp [bitsOfByte]

theorem bitsOf_cons (b : Byte) (x : List Byte) : bitsOf (b :: x) = bitsOfByte b ++ bitsOf x := rfl

/-- `bitsOf(x)[8j + i] = x[j][7 - i]` (R180), and 0 past the end. -/
theorem bitsOf_getD (x : List Byte) (j i : Nat) (hi : i < 8) :
    (bitsOf x).getD (8 * j + i) false = (x.getD j 0).getLsbD (7 - i) := by
  induction x generalizing j with
  | nil => simp [bitsOf]
  | cons b x ih =>
    rw [bitsOf_cons]
    cases j with
    | zero =>
      rw [List.getD_append _ _ _ _ (by simp; omega)]
      simp [bitsOfByte, hi]
    | succ j =>
      rw [List.getD_append_right _ _ _ _ (by simp; omega)]
      simp only [bitsOfByte_length, List.getD_cons_succ]
      rw [← ih j]
      congr 1
      omega

/-- Bit `7 - i` of a byte made of bits is bit `i` of them (R184). -/
theorem byteOfBits_getLsbD (s : List Bool) (i : Nat) (hi : i < 8) :
    (byteOfBits s).getLsbD (7 - i) = s.getD i false := by
  have h : ∀ b0 b1 b2 b3 b4 b5 b6 b7 : Bool, ∀ i : Fin 8,
      (BitVec.ofNat 8 (b0.toNat * 128 + (b1.toNat * 64 + (b2.toNat * 32 + (b3.toNat * 16 +
        (b4.toNat * 8 + (b5.toNat * 4 + (b6.toNat * 2 + (b7.toNat * 1 + 0))))))))).getLsbD (7 - i) =
      [b0, b1, b2, b3, b4, b5, b6, b7].getD i false := by decide +kernel
  refine Eq.trans ?_ ((h (s.getD 0 false) (s.getD 1 false) (s.getD 2 false) (s.getD 3 false)
    (s.getD 4 false) (s.getD 5 false) (s.getD 6 false) (s.getD 7 false) ⟨i, hi⟩).trans ?_)
  · rfl
  · interval_cases i <;> rfl

@[simp] theorem bytesOf_nil (tail : Config.TailPolicy) : bytesOf tail [] = [] := by rw [bytesOf]

theorem bytesOf_cons8 (tail : Config.TailPolicy) (s0 s1 s2 s3 s4 s5 s6 s7 : Bool) (rest : List Bool) :
    bytesOf tail (s0 :: s1 :: s2 :: s3 :: s4 :: s5 :: s6 :: s7 :: rest) =
      byteOfBits [s0, s1, s2, s3, s4, s5, s6, s7] :: bytesOf tail rest := by rw [bytesOf]

/-- The tail of fewer than eight bits (R185). -/
theorem bytesOf_short (tail : Config.TailPolicy) (s : List Bool) (h : s ≠ []) (h8 : s.length < 8) :
    bytesOf tail s = match tail with
      | .zeroPad => [byteOfBits s]
      | .truncate => [] := by
  match s, h, h8 with
  | [_], _, _ => rfl
  | [_, _], _, _ => rfl
  | [_, _, _], _, _ => rfl
  | [_, _, _, _], _, _ => rfl
  | [_, _, _, _, _], _, _ => rfl
  | [_, _, _, _, _, _], _, _ => rfl
  | [_, _, _, _, _, _, _], _, _ => rfl
  | _ :: _ :: _ :: _ :: _ :: _ :: _ :: _ :: _, _, h8 => simp at h8; omega

/-- The operator of the cipher paths is exclusive or (R183). -/
theorem opXor_eq : ∀ a b : Bool, opXor a b = (a ^^ b) := by decide

@[simp] theorem BitSeq.take_stream_length (n : Nat) (bit : Nat → Bool) :
    ((BitSeq.stream bit).take n).length = n := by simp [BitSeq.take]

end Sys2Proof.Machine
end

