-- ==== Sys2Proof/Laws/State.lean ====
section
/-! SUPPORT. What each update of the state does to each field: one lemma per field per update. -/

namespace Sys2Proof.Machine

/-! ### `flagsLaunch` -/

@[simp] theorem State.flagsLaunch_cmd (s : State) : s.flagsLaunch.cmd = s.cmd := rfl
@[simp] theorem State.flagsLaunch_busy (s : State) : s.flagsLaunch.busy = true := rfl
@[simp] theorem State.flagsLaunch_done (s : State) : s.flagsLaunch.done = false := rfl
@[simp] theorem State.flagsLaunch_err (s : State) : s.flagsLaunch.err = false := rfl
@[simp] theorem State.flagsLaunch_errCode (s : State) : s.flagsLaunch.errCode = 0 := rfl
@[simp] theorem State.flagsLaunch_len0 (s : State) : s.flagsLaunch.len0 = s.len0 := rfl
@[simp] theorem State.flagsLaunch_len1 (s : State) : s.flagsLaunch.len1 = s.len1 := rfl
@[simp] theorem State.flagsLaunch_len2 (s : State) : s.flagsLaunch.len2 = s.len2 := rfl
@[simp] theorem State.flagsLaunch_outLen (s : State) : s.flagsLaunch.outLen = s.outLen := rfl
@[simp] theorem State.flagsLaunch_key (s : State) : s.flagsLaunch.key = s.key := rfl
@[simp] theorem State.flagsLaunch_ibuf (s : State) : s.flagsLaunch.ibuf = s.ibuf := rfl
@[simp] theorem State.flagsLaunch_obuf (s : State) : s.flagsLaunch.obuf = s.obuf := rfl
@[simp] theorem State.flagsLaunch_kMsg (s : State) : s.flagsLaunch.kMsg = s.kMsg := rfl
@[simp] theorem State.flagsLaunch_ibufDraw (s : State) : s.flagsLaunch.ibufDraw = s.ibufDraw := rfl
@[simp] theorem State.flagsLaunch_obufDraw (s : State) : s.flagsLaunch.obufDraw = s.obufDraw := rfl
@[simp] theorem State.flagsLaunch_draws (s : State) : s.flagsLaunch.draws = s.draws := rfl
@[simp] theorem State.flagsLaunch_delay (s : State) : s.flagsLaunch.delay = s.delay := rfl
@[simp] theorem State.flagsLaunch_pending (s : State) : s.flagsLaunch.pending = s.pending := rfl
@[simp] theorem State.flagsLaunch_reads (s : State) : s.flagsLaunch.reads = s.reads := rfl

/-! ### `flagsSuccess` -/

@[simp] theorem State.flagsSuccess_cmd (s : State) : s.flagsSuccess.cmd = s.cmd := rfl
@[simp] theorem State.flagsSuccess_busy (s : State) : s.flagsSuccess.busy = false := rfl
@[simp] theorem State.flagsSuccess_done (s : State) : s.flagsSuccess.done = true := rfl
@[simp] theorem State.flagsSuccess_err (s : State) : s.flagsSuccess.err = false := rfl
@[simp] theorem State.flagsSuccess_errCode (s : State) : s.flagsSuccess.errCode = 0 := rfl
@[simp] theorem State.flagsSuccess_len0 (s : State) : s.flagsSuccess.len0 = s.len0 := rfl
@[simp] theorem State.flagsSuccess_len1 (s : State) : s.flagsSuccess.len1 = s.len1 := rfl
@[simp] theorem State.flagsSuccess_len2 (s : State) : s.flagsSuccess.len2 = s.len2 := rfl
@[simp] theorem State.flagsSuccess_outLen (s : State) : s.flagsSuccess.outLen = s.outLen := rfl
@[simp] theorem State.flagsSuccess_key (s : State) : s.flagsSuccess.key = s.key := rfl
@[simp] theorem State.flagsSuccess_ibuf (s : State) : s.flagsSuccess.ibuf = s.ibuf := rfl
@[simp] theorem State.flagsSuccess_obuf (s : State) : s.flagsSuccess.obuf = s.obuf := rfl
@[simp] theorem State.flagsSuccess_kMsg (s : State) : s.flagsSuccess.kMsg = s.kMsg := rfl
@[simp] theorem State.flagsSuccess_ibufDraw (s : State) : s.flagsSuccess.ibufDraw = s.ibufDraw := rfl
@[simp] theorem State.flagsSuccess_obufDraw (s : State) : s.flagsSuccess.obufDraw = s.obufDraw := rfl
@[simp] theorem State.flagsSuccess_draws (s : State) : s.flagsSuccess.draws = s.draws := rfl
@[simp] theorem State.flagsSuccess_delay (s : State) : s.flagsSuccess.delay = s.delay := rfl
@[simp] theorem State.flagsSuccess_pending (s : State) : s.flagsSuccess.pending = s.pending := rfl
@[simp] theorem State.flagsSuccess_reads (s : State) : s.flagsSuccess.reads = s.reads := rfl

/-! ### `flagsError` -/

@[simp] theorem State.flagsError_cmd (s : State) (e : EngineError) : (s.flagsError e).cmd = s.cmd := rfl
@[simp] theorem State.flagsError_busy (s : State) (e : EngineError) : (s.flagsError e).busy = false := rfl
@[simp] theorem State.flagsError_done (s : State) (e : EngineError) : (s.flagsError e).done = true := rfl
@[simp] theorem State.flagsError_err (s : State) (e : EngineError) : (s.flagsError e).err = true := rfl
@[simp] theorem State.flagsError_errCode (s : State) (e : EngineError) :
    (s.flagsError e).errCode = e.code := rfl
@[simp] theorem State.flagsError_len0 (s : State) (e : EngineError) : (s.flagsError e).len0 = s.len0 := rfl
@[simp] theorem State.flagsError_len1 (s : State) (e : EngineError) : (s.flagsError e).len1 = s.len1 := rfl
@[simp] theorem State.flagsError_len2 (s : State) (e : EngineError) : (s.flagsError e).len2 = s.len2 := rfl
@[simp] theorem State.flagsError_outLen (s : State) (e : EngineError) :
    (s.flagsError e).outLen = s.outLen := rfl
@[simp] theorem State.flagsError_key (s : State) (e : EngineError) : (s.flagsError e).key = s.key := rfl
@[simp] theorem State.flagsError_ibuf (s : State) (e : EngineError) : (s.flagsError e).ibuf = s.ibuf := rfl
@[simp] theorem State.flagsError_obuf (s : State) (e : EngineError) : (s.flagsError e).obuf = s.obuf := rfl
@[simp] theorem State.flagsError_kMsg (s : State) (e : EngineError) : (s.flagsError e).kMsg = s.kMsg := rfl
@[simp] theorem State.flagsError_ibufDraw (s : State) (e : EngineError) :
    (s.flagsError e).ibufDraw = s.ibufDraw := rfl
@[simp] theorem State.flagsError_obufDraw (s : State) (e : EngineError) :
    (s.flagsError e).obufDraw = s.obufDraw := rfl
@[simp] theorem State.flagsError_draws (s : State) (e : EngineError) : (s.flagsError e).draws = s.draws := rfl
@[simp] theorem State.flagsError_delay (s : State) (e : EngineError) : (s.flagsError e).delay = s.delay := rfl
@[simp] theorem State.flagsError_pending (s : State) (e : EngineError) :
    (s.flagsError e).pending = s.pending := rfl
@[simp] theorem State.flagsError_reads (s : State) (e : EngineError) : (s.flagsError e).reads = s.reads := rfl

/-! ### `setIbuf` -/

@[simp] theorem State.setIbuf_cmd (s : State) (off : Nat) (v : Byte) : (s.setIbuf off v).cmd = s.cmd := rfl
@[simp] theorem State.setIbuf_busy (s : State) (off : Nat) (v : Byte) : (s.setIbuf off v).busy = s.busy := rfl
@[simp] theorem State.setIbuf_done (s : State) (off : Nat) (v : Byte) : (s.setIbuf off v).done = s.done := rfl
@[simp] theorem State.setIbuf_err (s : State) (off : Nat) (v : Byte) : (s.setIbuf off v).err = s.err := rfl
@[simp] theorem State.setIbuf_errCode (s : State) (off : Nat) (v : Byte) :
    (s.setIbuf off v).errCode = s.errCode := rfl
@[simp] theorem State.setIbuf_len0 (s : State) (off : Nat) (v : Byte) : (s.setIbuf off v).len0 = s.len0 := rfl
@[simp] theorem State.setIbuf_len1 (s : State) (off : Nat) (v : Byte) : (s.setIbuf off v).len1 = s.len1 := rfl
@[simp] theorem State.setIbuf_len2 (s : State) (off : Nat) (v : Byte) : (s.setIbuf off v).len2 = s.len2 := rfl
@[simp] theorem State.setIbuf_outLen (s : State) (off : Nat) (v : Byte) :
    (s.setIbuf off v).outLen = s.outLen := rfl
@[simp] theorem State.setIbuf_key (s : State) (off : Nat) (v : Byte) : (s.setIbuf off v).key = s.key := rfl
@[simp] theorem State.setIbuf_ibuf (s : State) (off : Nat) (v : Byte) :
    (s.setIbuf off v).ibuf = Memory.store s.ibuf off v := rfl
@[simp] theorem State.setIbuf_obuf (s : State) (off : Nat) (v : Byte) : (s.setIbuf off v).obuf = s.obuf := rfl
@[simp] theorem State.setIbuf_kMsg (s : State) (off : Nat) (v : Byte) : (s.setIbuf off v).kMsg = s.kMsg := rfl
@[simp] theorem State.setIbuf_ibufDraw (s : State) (off : Nat) (v : Byte) :
    (s.setIbuf off v).ibufDraw = s.ibufDraw := rfl
@[simp] theorem State.setIbuf_obufDraw (s : State) (off : Nat) (v : Byte) :
    (s.setIbuf off v).obufDraw = s.obufDraw := rfl
@[simp] theorem State.setIbuf_draws (s : State) (off : Nat) (v : Byte) :
    (s.setIbuf off v).draws = s.draws := rfl
@[simp] theorem State.setIbuf_delay (s : State) (off : Nat) (v : Byte) :
    (s.setIbuf off v).delay = s.delay := rfl
@[simp] theorem State.setIbuf_pending (s : State) (off : Nat) (v : Byte) :
    (s.setIbuf off v).pending = s.pending := rfl
@[simp] theorem State.setIbuf_reads (s : State) (off : Nat) (v : Byte) :
    (s.setIbuf off v).reads = s.reads := rfl

/-! ### `setObuf` -/

@[simp] theorem State.setObuf_cmd (s : State) (out : List Byte) : (s.setObuf out).cmd = s.cmd := rfl
@[simp] theorem State.setObuf_busy (s : State) (out : List Byte) : (s.setObuf out).busy = s.busy := rfl
@[simp] theorem State.setObuf_done (s : State) (out : List Byte) : (s.setObuf out).done = s.done := rfl
@[simp] theorem State.setObuf_err (s : State) (out : List Byte) : (s.setObuf out).err = s.err := rfl
@[simp] theorem State.setObuf_errCode (s : State) (out : List Byte) :
    (s.setObuf out).errCode = s.errCode := rfl
@[simp] theorem State.setObuf_len0 (s : State) (out : List Byte) : (s.setObuf out).len0 = s.len0 := rfl
@[simp] theorem State.setObuf_len1 (s : State) (out : List Byte) : (s.setObuf out).len1 = s.len1 := rfl
@[simp] theorem State.setObuf_len2 (s : State) (out : List Byte) : (s.setObuf out).len2 = s.len2 := rfl
@[simp] theorem State.setObuf_outLen (s : State) (out : List Byte) : (s.setObuf out).outLen = s.outLen := rfl
@[simp] theorem State.setObuf_key (s : State) (out : List Byte) : (s.setObuf out).key = s.key := rfl
@[simp] theorem State.setObuf_ibuf (s : State) (out : List Byte) : (s.setObuf out).ibuf = s.ibuf := rfl
@[simp] theorem State.setObuf_obuf (s : State) (out : List Byte) :
    (s.setObuf out).obuf = Memory.storeList [] 0 out := rfl
@[simp] theorem State.setObuf_kMsg (s : State) (out : List Byte) : (s.setObuf out).kMsg = s.kMsg := rfl
@[simp] theorem State.setObuf_ibufDraw (s : State) (out : List Byte) :
    (s.setObuf out).ibufDraw = s.ibufDraw := rfl
@[simp] theorem State.setObuf_obufDraw (s : State) (out : List Byte) :
    (s.setObuf out).obufDraw = s.draws := rfl
@[simp] theorem State.setObuf_draws (s : State) (out : List Byte) : (s.setObuf out).draws = s.draws + 1 := rfl
@[simp] theorem State.setObuf_delay (s : State) (out : List Byte) : (s.setObuf out).delay = s.delay := rfl
@[simp] theorem State.setObuf_pending (s : State) (out : List Byte) :
    (s.setObuf out).pending = s.pending := rfl
@[simp] theorem State.setObuf_reads (s : State) (out : List Byte) : (s.setObuf out).reads = s.reads := rfl

/-! ### `launch` -/

@[simp] theorem State.launch_cmd (s : State) (w : Word) : (s.launch w).cmd = w := rfl
@[simp] theorem State.launch_busy (s : State) (w : Word) : (s.launch w).busy = true := rfl
@[simp] theorem State.launch_done (s : State) (w : Word) : (s.launch w).done = false := rfl
@[simp] theorem State.launch_err (s : State) (w : Word) : (s.launch w).err = false := rfl
@[simp] theorem State.launch_errCode (s : State) (w : Word) : (s.launch w).errCode = 0 := rfl
@[simp] theorem State.launch_len0 (s : State) (w : Word) : (s.launch w).len0 = s.len0 := rfl
@[simp] theorem State.launch_len1 (s : State) (w : Word) : (s.launch w).len1 = s.len1 := rfl
@[simp] theorem State.launch_len2 (s : State) (w : Word) : (s.launch w).len2 = s.len2 := rfl
@[simp] theorem State.launch_outLen (s : State) (w : Word) : (s.launch w).outLen = s.outLen := rfl
@[simp] theorem State.launch_key (s : State) (w : Word) : (s.launch w).key = s.key := rfl
@[simp] theorem State.launch_ibuf (s : State) (w : Word) : (s.launch w).ibuf = s.ibuf := rfl
@[simp] theorem State.launch_obuf (s : State) (w : Word) : (s.launch w).obuf = s.obuf := rfl
@[simp] theorem State.launch_kMsg (s : State) (w : Word) : (s.launch w).kMsg = s.kMsg := rfl
@[simp] theorem State.launch_ibufDraw (s : State) (w : Word) : (s.launch w).ibufDraw = s.ibufDraw := rfl
@[simp] theorem State.launch_obufDraw (s : State) (w : Word) : (s.launch w).obufDraw = s.obufDraw := rfl
@[simp] theorem State.launch_draws (s : State) (w : Word) : (s.launch w).draws = s.draws + 1 := rfl
@[simp] theorem State.launch_delay (s : State) (w : Word) :
    (s.launch w).delay = Config.completionDelay s.draws := rfl
@[simp] theorem State.launch_pending (s : State) (w : Word) : (s.launch w).pending = s.pending := rfl
@[simp] theorem State.launch_reads (s : State) (w : Word) : (s.launch w).reads = s.reads := rfl

/-! ### `launched` -/

@[simp] theorem State.launched_cmd (s : State) (w : Word) : (s.launched w).cmd = w := rfl
@[simp] theorem State.launched_busy (s : State) (w : Word) : (s.launched w).busy = true := rfl
@[simp] theorem State.launched_done (s : State) (w : Word) : (s.launched w).done = false := rfl
@[simp] theorem State.launched_err (s : State) (w : Word) : (s.launched w).err = false := rfl
@[simp] theorem State.launched_errCode (s : State) (w : Word) : (s.launched w).errCode = 0 := rfl
@[simp] theorem State.launched_len0 (s : State) (w : Word) : (s.launched w).len0 = s.len0 := rfl
@[simp] theorem State.launched_len1 (s : State) (w : Word) : (s.launched w).len1 = s.len1 := rfl
@[simp] theorem State.launched_len2 (s : State) (w : Word) : (s.launched w).len2 = s.len2 := rfl
@[simp] theorem State.launched_outLen (s : State) (w : Word) : (s.launched w).outLen = s.outLen := rfl
@[simp] theorem State.launched_key (s : State) (w : Word) : (s.launched w).key = s.key := rfl
@[simp] theorem State.launched_ibuf (s : State) (w : Word) : (s.launched w).ibuf = s.ibuf := rfl
@[simp] theorem State.launched_obuf (s : State) (w : Word) : (s.launched w).obuf = s.obuf := rfl
@[simp] theorem State.launched_kMsg (s : State) (w : Word) : (s.launched w).kMsg = s.kMsg := rfl
@[simp] theorem State.launched_ibufDraw (s : State) (w : Word) : (s.launched w).ibufDraw = s.ibufDraw := rfl
@[simp] theorem State.launched_obufDraw (s : State) (w : Word) : (s.launched w).obufDraw = s.obufDraw := rfl
@[simp] theorem State.launched_draws (s : State) (w : Word) : (s.launched w).draws = s.draws := rfl
@[simp] theorem State.launched_delay (s : State) (w : Word) : (s.launched w).delay = 0 := rfl
@[simp] theorem State.launched_pending (s : State) (w : Word) : (s.launched w).pending = s.pending := rfl
@[simp] theorem State.launched_reads (s : State) (w : Word) : (s.launched w).reads = s.reads := rfl

/-! ### `drawTrng` -/

@[simp] theorem State.drawTrng_cmd (s : State) : s.drawTrng.2.cmd = s.cmd := rfl
@[simp] theorem State.drawTrng_busy (s : State) : s.drawTrng.2.busy = s.busy := rfl
@[simp] theorem State.drawTrng_done (s : State) : s.drawTrng.2.done = s.done := rfl
@[simp] theorem State.drawTrng_err (s : State) : s.drawTrng.2.err = s.err := rfl
@[simp] theorem State.drawTrng_errCode (s : State) : s.drawTrng.2.errCode = s.errCode := rfl
@[simp] theorem State.drawTrng_len0 (s : State) : s.drawTrng.2.len0 = s.len0 := rfl
@[simp] theorem State.drawTrng_len1 (s : State) : s.drawTrng.2.len1 = s.len1 := rfl
@[simp] theorem State.drawTrng_len2 (s : State) : s.drawTrng.2.len2 = s.len2 := rfl
@[simp] theorem State.drawTrng_outLen (s : State) : s.drawTrng.2.outLen = s.outLen := rfl
@[simp] theorem State.drawTrng_key (s : State) : s.drawTrng.2.key = s.key := rfl
@[simp] theorem State.drawTrng_ibuf (s : State) : s.drawTrng.2.ibuf = s.ibuf := rfl
@[simp] theorem State.drawTrng_obuf (s : State) : s.drawTrng.2.obuf = s.obuf := rfl
@[simp] theorem State.drawTrng_kMsg (s : State) : s.drawTrng.2.kMsg = some (Config.trng s.draws) := rfl
@[simp] theorem State.drawTrng_ibufDraw (s : State) : s.drawTrng.2.ibufDraw = s.ibufDraw := rfl
@[simp] theorem State.drawTrng_obufDraw (s : State) : s.drawTrng.2.obufDraw = s.obufDraw := rfl
@[simp] theorem State.drawTrng_draws (s : State) : s.drawTrng.2.draws = s.draws + 1 := rfl
@[simp] theorem State.drawTrng_delay (s : State) : s.drawTrng.2.delay = s.delay := rfl
@[simp] theorem State.drawTrng_pending (s : State) : s.drawTrng.2.pending = s.pending := rfl
@[simp] theorem State.drawTrng_reads (s : State) : s.drawTrng.2.reads = s.reads := rfl

/-! ### `setKMsg` -/

@[simp] theorem State.setKMsg_cmd (s : State) (k : Vector Byte 32) : (s.setKMsg k).cmd = s.cmd := rfl
@[simp] theorem State.setKMsg_busy (s : State) (k : Vector Byte 32) : (s.setKMsg k).busy = s.busy := rfl
@[simp] theorem State.setKMsg_done (s : State) (k : Vector Byte 32) : (s.setKMsg k).done = s.done := rfl
@[simp] theorem State.setKMsg_err (s : State) (k : Vector Byte 32) : (s.setKMsg k).err = s.err := rfl
@[simp] theorem State.setKMsg_errCode (s : State) (k : Vector Byte 32) :
    (s.setKMsg k).errCode = s.errCode := rfl
@[simp] theorem State.setKMsg_len0 (s : State) (k : Vector Byte 32) : (s.setKMsg k).len0 = s.len0 := rfl
@[simp] theorem State.setKMsg_len1 (s : State) (k : Vector Byte 32) : (s.setKMsg k).len1 = s.len1 := rfl
@[simp] theorem State.setKMsg_len2 (s : State) (k : Vector Byte 32) : (s.setKMsg k).len2 = s.len2 := rfl
@[simp] theorem State.setKMsg_outLen (s : State) (k : Vector Byte 32) : (s.setKMsg k).outLen = s.outLen := rfl
@[simp] theorem State.setKMsg_key (s : State) (k : Vector Byte 32) : (s.setKMsg k).key = s.key := rfl
@[simp] theorem State.setKMsg_ibuf (s : State) (k : Vector Byte 32) : (s.setKMsg k).ibuf = s.ibuf := rfl
@[simp] theorem State.setKMsg_obuf (s : State) (k : Vector Byte 32) : (s.setKMsg k).obuf = s.obuf := rfl
@[simp] theorem State.setKMsg_kMsg (s : State) (k : Vector Byte 32) : (s.setKMsg k).kMsg = some k := rfl
@[simp] theorem State.setKMsg_ibufDraw (s : State) (k : Vector Byte 32) :
    (s.setKMsg k).ibufDraw = s.ibufDraw := rfl
@[simp] theorem State.setKMsg_obufDraw (s : State) (k : Vector Byte 32) :
    (s.setKMsg k).obufDraw = s.obufDraw := rfl
@[simp] theorem State.setKMsg_draws (s : State) (k : Vector Byte 32) : (s.setKMsg k).draws = s.draws := rfl
@[simp] theorem State.setKMsg_delay (s : State) (k : Vector Byte 32) : (s.setKMsg k).delay = s.delay := rfl
@[simp] theorem State.setKMsg_pending (s : State) (k : Vector Byte 32) :
    (s.setKMsg k).pending = s.pending := rfl
@[simp] theorem State.setKMsg_reads (s : State) (k : Vector Byte 32) : (s.setKMsg k).reads = s.reads := rfl

/-! ### `discardKMsg` -/

@[simp] theorem State.discardKMsg_cmd (s : State) : s.discardKMsg.cmd = s.cmd := rfl
@[simp] theorem State.discardKMsg_busy (s : State) : s.discardKMsg.busy = s.busy := rfl
@[simp] theorem State.discardKMsg_done (s : State) : s.discardKMsg.done = s.done := rfl
@[simp] theorem State.discardKMsg_err (s : State) : s.discardKMsg.err = s.err := rfl
@[simp] theorem State.discardKMsg_errCode (s : State) : s.discardKMsg.errCode = s.errCode := rfl
@[simp] theorem State.discardKMsg_len0 (s : State) : s.discardKMsg.len0 = s.len0 := rfl
@[simp] theorem State.discardKMsg_len1 (s : State) : s.discardKMsg.len1 = s.len1 := rfl
@[simp] theorem State.discardKMsg_len2 (s : State) : s.discardKMsg.len2 = s.len2 := rfl
@[simp] theorem State.discardKMsg_outLen (s : State) : s.discardKMsg.outLen = s.outLen := rfl
@[simp] theorem State.discardKMsg_key (s : State) : s.discardKMsg.key = s.key := rfl
@[simp] theorem State.discardKMsg_ibuf (s : State) : s.discardKMsg.ibuf = s.ibuf := rfl
@[simp] theorem State.discardKMsg_obuf (s : State) : s.discardKMsg.obuf = s.obuf := rfl
@[simp] theorem State.discardKMsg_kMsg (s : State) : s.discardKMsg.kMsg = none := rfl
@[simp] theorem State.discardKMsg_ibufDraw (s : State) : s.discardKMsg.ibufDraw = s.ibufDraw := rfl
@[simp] theorem State.discardKMsg_obufDraw (s : State) : s.discardKMsg.obufDraw = s.obufDraw := rfl
@[simp] theorem State.discardKMsg_draws (s : State) : s.discardKMsg.draws = s.draws := rfl
@[simp] theorem State.discardKMsg_delay (s : State) : s.discardKMsg.delay = s.delay := rfl
@[simp] theorem State.discardKMsg_pending (s : State) : s.discardKMsg.pending = s.pending := rfl
@[simp] theorem State.discardKMsg_reads (s : State) : s.discardKMsg.reads = s.reads := rfl

/-! ### `loadKeyStore` -/

@[simp] theorem State.loadKeyStore_cmd (s : State) (km : KeyMaterial) : (s.loadKeyStore km).cmd = s.cmd := rfl
@[simp] theorem State.loadKeyStore_busy (s : State) (km : KeyMaterial) :
    (s.loadKeyStore km).busy = s.busy := rfl
@[simp] theorem State.loadKeyStore_done (s : State) (km : KeyMaterial) :
    (s.loadKeyStore km).done = s.done := rfl
@[simp] theorem State.loadKeyStore_err (s : State) (km : KeyMaterial) : (s.loadKeyStore km).err = s.err := rfl
@[simp] theorem State.loadKeyStore_errCode (s : State) (km : KeyMaterial) :
    (s.loadKeyStore km).errCode = s.errCode := rfl
@[simp] theorem State.loadKeyStore_len0 (s : State) (km : KeyMaterial) :
    (s.loadKeyStore km).len0 = s.len0 := rfl
@[simp] theorem State.loadKeyStore_len1 (s : State) (km : KeyMaterial) :
    (s.loadKeyStore km).len1 = s.len1 := rfl
@[simp] theorem State.loadKeyStore_len2 (s : State) (km : KeyMaterial) :
    (s.loadKeyStore km).len2 = s.len2 := rfl
@[simp] theorem State.loadKeyStore_outLen (s : State) (km : KeyMaterial) :
    (s.loadKeyStore km).outLen = s.outLen := rfl
@[simp] theorem State.loadKeyStore_key (s : State) (km : KeyMaterial) :
    (s.loadKeyStore km).key = some km := rfl
@[simp] theorem State.loadKeyStore_ibuf (s : State) (km : KeyMaterial) :
    (s.loadKeyStore km).ibuf = s.ibuf := rfl
@[simp] theorem State.loadKeyStore_obuf (s : State) (km : KeyMaterial) :
    (s.loadKeyStore km).obuf = s.obuf := rfl
@[simp] theorem State.loadKeyStore_kMsg (s : State) (km : KeyMaterial) :
    (s.loadKeyStore km).kMsg = s.kMsg := rfl
@[simp] theorem State.loadKeyStore_ibufDraw (s : State) (km : KeyMaterial) :
    (s.loadKeyStore km).ibufDraw = s.ibufDraw := rfl
@[simp] theorem State.loadKeyStore_obufDraw (s : State) (km : KeyMaterial) :
    (s.loadKeyStore km).obufDraw = s.obufDraw := rfl
@[simp] theorem State.loadKeyStore_draws (s : State) (km : KeyMaterial) :
    (s.loadKeyStore km).draws = s.draws := rfl
@[simp] theorem State.loadKeyStore_delay (s : State) (km : KeyMaterial) :
    (s.loadKeyStore km).delay = s.delay := rfl
@[simp] theorem State.loadKeyStore_pending (s : State) (km : KeyMaterial) :
    (s.loadKeyStore km).pending = s.pending := rfl
@[simp] theorem State.loadKeyStore_reads (s : State) (km : KeyMaterial) :
    (s.loadKeyStore km).reads = s.reads := rfl

/-! ### `finish` -/

@[simp] theorem State.finish_cmd (s : State) (out : List Byte) : (s.finish out).cmd = s.cmd := rfl
@[simp] theorem State.finish_busy (s : State) (out : List Byte) : (s.finish out).busy = false := rfl
@[simp] theorem State.finish_done (s : State) (out : List Byte) : (s.finish out).done = true := rfl
@[simp] theorem State.finish_err (s : State) (out : List Byte) : (s.finish out).err = false := rfl
@[simp] theorem State.finish_errCode (s : State) (out : List Byte) : (s.finish out).errCode = 0 := rfl
@[simp] theorem State.finish_len0 (s : State) (out : List Byte) : (s.finish out).len0 = s.len0 := rfl
@[simp] theorem State.finish_len1 (s : State) (out : List Byte) : (s.finish out).len1 = s.len1 := rfl
@[simp] theorem State.finish_len2 (s : State) (out : List Byte) : (s.finish out).len2 = s.len2 := rfl
@[simp] theorem State.finish_outLen (s : State) (out : List Byte) :
    (s.finish out).outLen = BitVec.ofNat 32 out.length := rfl
@[simp] theorem State.finish_key (s : State) (out : List Byte) : (s.finish out).key = s.key := rfl
@[simp] theorem State.finish_ibuf (s : State) (out : List Byte) : (s.finish out).ibuf = s.ibuf := rfl
@[simp] theorem State.finish_obuf (s : State) (out : List Byte) :
    (s.finish out).obuf = Memory.storeList [] 0 out := rfl
@[simp] theorem State.finish_kMsg (s : State) (out : List Byte) : (s.finish out).kMsg = none := rfl
@[simp] theorem State.finish_ibufDraw (s : State) (out : List Byte) :
    (s.finish out).ibufDraw = s.ibufDraw := rfl
@[simp] theorem State.finish_obufDraw (s : State) (out : List Byte) : (s.finish out).obufDraw = s.draws := rfl
@[simp] theorem State.finish_draws (s : State) (out : List Byte) : (s.finish out).draws = s.draws + 1 := rfl
@[simp] theorem State.finish_delay (s : State) (out : List Byte) : (s.finish out).delay = s.delay := rfl
@[simp] theorem State.finish_pending (s : State) (out : List Byte) : (s.finish out).pending = s.pending := rfl
@[simp] theorem State.finish_reads (s : State) (out : List Byte) : (s.finish out).reads = s.reads := rfl

/-! ### `raise` -/

@[simp] theorem State.raise_cmd (s : State) (e : EngineError) : (s.raise e).cmd = s.cmd := rfl
@[simp] theorem State.raise_busy (s : State) (e : EngineError) : (s.raise e).busy = false := rfl
@[simp] theorem State.raise_done (s : State) (e : EngineError) : (s.raise e).done = true := rfl
@[simp] theorem State.raise_err (s : State) (e : EngineError) : (s.raise e).err = true := rfl
@[simp] theorem State.raise_errCode (s : State) (e : EngineError) : (s.raise e).errCode = e.code := rfl
@[simp] theorem State.raise_len0 (s : State) (e : EngineError) : (s.raise e).len0 = s.len0 := rfl
@[simp] theorem State.raise_len1 (s : State) (e : EngineError) : (s.raise e).len1 = s.len1 := rfl
@[simp] theorem State.raise_len2 (s : State) (e : EngineError) : (s.raise e).len2 = s.len2 := rfl
@[simp] theorem State.raise_outLen (s : State) (e : EngineError) : (s.raise e).outLen = 0 := rfl
@[simp] theorem State.raise_key (s : State) (e : EngineError) : (s.raise e).key = s.key := rfl
@[simp] theorem State.raise_ibuf (s : State) (e : EngineError) : (s.raise e).ibuf = s.ibuf := rfl
@[simp] theorem State.raise_obuf (s : State) (e : EngineError) : (s.raise e).obuf = [] := rfl
@[simp] theorem State.raise_kMsg (s : State) (e : EngineError) : (s.raise e).kMsg = none := rfl
@[simp] theorem State.raise_ibufDraw (s : State) (e : EngineError) : (s.raise e).ibufDraw = s.ibufDraw := rfl
@[simp] theorem State.raise_obufDraw (s : State) (e : EngineError) : (s.raise e).obufDraw = s.draws := rfl
@[simp] theorem State.raise_draws (s : State) (e : EngineError) : (s.raise e).draws = s.draws + 1 := rfl
@[simp] theorem State.raise_delay (s : State) (e : EngineError) : (s.raise e).delay = s.delay := rfl
@[simp] theorem State.raise_pending (s : State) (e : EngineError) : (s.raise e).pending = s.pending := rfl
@[simp] theorem State.raise_reads (s : State) (e : EngineError) : (s.raise e).reads = s.reads := rfl

/-! ### `resetInput` -/

@[simp] theorem State.resetInput_cmd (s : State) : s.resetInput.cmd = 0 := rfl
@[simp] theorem State.resetInput_busy (s : State) : s.resetInput.busy = false := rfl
@[simp] theorem State.resetInput_done (s : State) : s.resetInput.done = false := rfl
@[simp] theorem State.resetInput_err (s : State) : s.resetInput.err = false := rfl
@[simp] theorem State.resetInput_errCode (s : State) : s.resetInput.errCode = 0 := rfl
@[simp] theorem State.resetInput_len0 (s : State) : s.resetInput.len0 = 0 := rfl
@[simp] theorem State.resetInput_len1 (s : State) : s.resetInput.len1 = 0 := rfl
@[simp] theorem State.resetInput_len2 (s : State) : s.resetInput.len2 = 0 := rfl
@[simp] theorem State.resetInput_outLen (s : State) : s.resetInput.outLen = 0 := rfl
@[simp] theorem State.resetInput_key (s : State) : s.resetInput.key = none := rfl
@[simp] theorem State.resetInput_ibuf (s : State) : s.resetInput.ibuf = [] := rfl
@[simp] theorem State.resetInput_obuf (s : State) : s.resetInput.obuf = [] := rfl
@[simp] theorem State.resetInput_kMsg (s : State) : s.resetInput.kMsg = none := rfl
@[simp] theorem State.resetInput_ibufDraw (s : State) : s.resetInput.ibufDraw = s.draws := rfl
@[simp] theorem State.resetInput_obufDraw (s : State) : s.resetInput.obufDraw = s.draws + 1 := rfl
@[simp] theorem State.resetInput_draws (s : State) : s.resetInput.draws = s.draws + 2 := rfl
@[simp] theorem State.resetInput_delay (s : State) : s.resetInput.delay = 0 := rfl
@[simp] theorem State.resetInput_pending (s : State) : s.resetInput.pending = s.pending := rfl
@[simp] theorem State.resetInput_reads (s : State) : s.resetInput.reads = s.reads := rfl

/-! ### `observe` -/

@[simp] theorem State.observe_cmd (s : State) (r : HostRead) : (s.observe r).cmd = s.cmd := rfl
@[simp] theorem State.observe_busy (s : State) (r : HostRead) : (s.observe r).busy = s.busy := rfl
@[simp] theorem State.observe_done (s : State) (r : HostRead) : (s.observe r).done = s.done := rfl
@[simp] theorem State.observe_err (s : State) (r : HostRead) : (s.observe r).err = s.err := rfl
@[simp] theorem State.observe_errCode (s : State) (r : HostRead) : (s.observe r).errCode = s.errCode := rfl
@[simp] theorem State.observe_len0 (s : State) (r : HostRead) : (s.observe r).len0 = s.len0 := rfl
@[simp] theorem State.observe_len1 (s : State) (r : HostRead) : (s.observe r).len1 = s.len1 := rfl
@[simp] theorem State.observe_len2 (s : State) (r : HostRead) : (s.observe r).len2 = s.len2 := rfl
@[simp] theorem State.observe_outLen (s : State) (r : HostRead) : (s.observe r).outLen = s.outLen := rfl
@[simp] theorem State.observe_key (s : State) (r : HostRead) : (s.observe r).key = s.key := rfl
@[simp] theorem State.observe_ibuf (s : State) (r : HostRead) : (s.observe r).ibuf = s.ibuf := rfl
@[simp] theorem State.observe_obuf (s : State) (r : HostRead) : (s.observe r).obuf = s.obuf := rfl
@[simp] theorem State.observe_kMsg (s : State) (r : HostRead) : (s.observe r).kMsg = s.kMsg := rfl
@[simp] theorem State.observe_ibufDraw (s : State) (r : HostRead) : (s.observe r).ibufDraw = s.ibufDraw := rfl
@[simp] theorem State.observe_obufDraw (s : State) (r : HostRead) : (s.observe r).obufDraw = s.obufDraw := rfl
@[simp] theorem State.observe_draws (s : State) (r : HostRead) : (s.observe r).draws = s.draws := rfl
@[simp] theorem State.observe_delay (s : State) (r : HostRead) : (s.observe r).delay = s.delay := rfl
@[simp] theorem State.observe_pending (s : State) (r : HostRead) : (s.observe r).pending = s.pending := rfl
@[simp] theorem State.observe_reads (s : State) (r : HostRead) : (s.observe r).reads = r :: s.reads := rfl

/-! ### `countDraw` -/

@[simp] theorem State.countDraw_cmd (s : State) : s.countDraw.cmd = s.cmd := rfl
@[simp] theorem State.countDraw_busy (s : State) : s.countDraw.busy = s.busy := rfl
@[simp] theorem State.countDraw_done (s : State) : s.countDraw.done = s.done := rfl
@[simp] theorem State.countDraw_err (s : State) : s.countDraw.err = s.err := rfl
@[simp] theorem State.countDraw_errCode (s : State) : s.countDraw.errCode = s.errCode := rfl
@[simp] theorem State.countDraw_len0 (s : State) : s.countDraw.len0 = s.len0 := rfl
@[simp] theorem State.countDraw_len1 (s : State) : s.countDraw.len1 = s.len1 := rfl
@[simp] theorem State.countDraw_len2 (s : State) : s.countDraw.len2 = s.len2 := rfl
@[simp] theorem State.countDraw_outLen (s : State) : s.countDraw.outLen = s.outLen := rfl
@[simp] theorem State.countDraw_key (s : State) : s.countDraw.key = s.key := rfl
@[simp] theorem State.countDraw_ibuf (s : State) : s.countDraw.ibuf = s.ibuf := rfl
@[simp] theorem State.countDraw_obuf (s : State) : s.countDraw.obuf = s.obuf := rfl
@[simp] theorem State.countDraw_kMsg (s : State) : s.countDraw.kMsg = s.kMsg := rfl
@[simp] theorem State.countDraw_ibufDraw (s : State) : s.countDraw.ibufDraw = s.ibufDraw := rfl
@[simp] theorem State.countDraw_obufDraw (s : State) : s.countDraw.obufDraw = s.obufDraw := rfl
@[simp] theorem State.countDraw_draws (s : State) : s.countDraw.draws = s.draws + 1 := rfl
@[simp] theorem State.countDraw_delay (s : State) : s.countDraw.delay = s.delay := rfl
@[simp] theorem State.countDraw_pending (s : State) : s.countDraw.pending = s.pending := rfl
@[simp] theorem State.countDraw_reads (s : State) : s.countDraw.reads = s.reads := rfl

end Sys2Proof.Machine
end

