-- ==== Sys2Proof/Laws/HostBus.lean ====
section
/-! SUPPORT. Everything a host access can do, said once, and the bytes of the window. -/

namespace Sys2Proof.Machine

/-- An aligned offset of the window is one of the eight registers' or a reserved one (R33). -/
theorem regAt_cases {off : Nat} (ha : off % 4 = 0) (hw : off < 0x40) :
    off = 0x00 ∨ off = 0x04 ∨ off = 0x08 ∨ off = 0x0C ∨ off = 0x10 ∨ off = 0x14 ∨ off = 0x18 ∨
      off = 0x1C ∨ (0x20 ≤ off ∧ regAt off = .reserved) := by
  interval_cases off <;> first | omega | simp [regAt]

theorem regAccessOk_of {off : Nat} (ha : off % 4 = 0) (hw : off < 0x40) :
    regAccessOk 32 off = true := by
  simp [regAccessOk, regWidthOk, regAligned, regInWindow, ha, hw]

/-- The next states of a host access: nothing happened; a launch; a length or IBUF byte stored; a read
observed, with a free value while BUSY; a poll that goes on; a reset. -/
theorem hostStep_cases {op : HostOp} {s t : State} (h : hostStep op s = .next t) :
    t = s ∨ (s.busy = false ∧ ∃ w, t = s.launch w) ∨
      (s.busy = false ∧ ∃ v, t = { s with len0 := v } ∨ t = { s with len1 := v } ∨
        t = { s with len2 := v }) ∨
      (s.busy = false ∧ ∃ off v, off < Config.ibufSize ∧ t = s.setIbuf off v) ∨
      (∃ r, t = s.observe r) ∨ (s.busy = true ∧ ∃ r, t = (s.observe r).countDraw) ∨
      (op = .poll ∧ ∃ r, t = { s.observe r with pending := .poll :: s.pending }) ∨
      (op = .reset ∧ t = s.resetInput) := by
  have next : ∀ a : State, (.next a : Outcome) = .next t → t = a := fun a h => by
    injection h with h; exact h.symm
  have guard : ∀ a : State, s.guardBusy a = .next t → s.busy = false ∧ t = a := fun a h => by
    unfold State.guardBusy at h
    cases hb : s.busy with
    | true => simp [hb] at h
    | false => rw [hb] at h; exact ⟨rfl, next a h⟩
  cases op with
  | regWrite width off v =>
    simp only [hostStep] at h
    split at h
    · cases hr : regAt off <;> simp only [hr, State.hostWriteReg] at h
      case cmd => exact .inr (.inl ⟨(guard _ h).1, v, (guard _ h).2⟩)
      case len0 => exact .inr (.inr (.inl ⟨(guard _ h).1, v, .inl (guard _ h).2⟩))
      case len1 => exact .inr (.inr (.inl ⟨(guard _ h).1, v, .inr (.inl (guard _ h).2)⟩))
      case len2 => exact .inr (.inr (.inl ⟨(guard _ h).1, v, .inr (.inr (guard _ h).2)⟩))
      all_goals exact .inl (next _ h)
    · cases h
  | regRead width off =>
    simp only [hostStep] at h
    split at h
    · have h := next _ h
      unfold State.hostReadReg at h
      split at h
      · rename_i hb
        exact .inr (.inr (.inr (.inr (.inr (.inl ⟨hb.2, _, h⟩)))))
      · exact .inr (.inr (.inr (.inr (.inl ⟨_, h⟩))))
    · cases h
  | bufWrite b off v =>
    simp only [hostStep] at h
    split at h
    · rename_i hok
      cases b with
      | ibuf =>
        exact .inr (.inr (.inr (.inl ⟨(guard _ h).1, off, v, of_decide_eq_true hok, (guard _ h).2⟩)))
      | obuf => exact .inl (next _ h)
    · cases h
  | bufRead b off =>
    simp only [hostStep] at h
    split at h
    · have h := next _ h
      cases b with
      | ibuf => exact .inr (.inr (.inr (.inr (.inl ⟨_, h⟩))))
      | obuf =>
        simp only [State.hostReadBuf] at h
        split at h
        · rename_i hb
          exact .inr (.inr (.inr (.inr (.inr (.inl ⟨hb, _, h⟩)))))
        · exact .inr (.inr (.inr (.inr (.inl ⟨_, h⟩))))
    · cases h
  | poll =>
    have h := next _ h
    have hread : s.hostReadReg .status = s.observe (.word s.status) := by
      simp [State.hostReadReg, State.regValue]
    unfold State.hostPoll at h
    rw [hread] at h
    split at h
    · exact .inr (.inr (.inr (.inr (.inl ⟨_, h⟩))))
    · exact .inr (.inr (.inr (.inr (.inr (.inr (.inl ⟨rfl, _, h⟩))))))
  | reset => exact .inr (.inr (.inr (.inr (.inr (.inr (.inr ⟨rfl, next _ h⟩))))))

end Sys2Proof.Machine
end

