-- ==== Sys2Proof/Laws/Memory.lean ====
section
/-! SUPPORT. The buffers: reading after writing, and that every operation keeps the canonical form. -/

namespace Sys2Proof.Machine.Memory

@[simp] theorem read?_nil (off : Nat) : read? [] off = none := rfl

/-- Reading after storing a byte: that byte there, what was there before elsewhere. -/
theorem read?_store (m : List Host.Cell) (off : Nat) (v : Byte) (a : Nat) (h : wf m = true) :
    read? (store m off v) a = if a = off then some v else read? m a := by
  induction m with
  | nil => by_cases ha : off = a <;> simp [store, read?, ha, eq_comm]
  | cons c rest ih =>
    have hrest : wf rest = true := by
      cases rest with
      | nil => rfl
      | cons d r => simp only [wf, Bool.and_eq_true] at h; exact h.2
    simp only [store]
    split
    · by_cases ha : off = a <;> simp [read?, ha, eq_comm]
    · split
      · rename_i heq
        by_cases ha : off = a
        · simp [read?, ha]
        · have hne : ¬ a = off := fun h => ha h.symm
          have hc : ¬ c.1 = a := fun h => ha (heq.trans h)
          simp [read?, ha, hne, hc]
      · rename_i hne
        simp only [read?]
        by_cases hc : c.1 = a
        · have : ¬ a = off := fun h => hne (h ▸ hc.symm)
          simp [hc, this]
        · simp [hc, ih hrest]

/-- A byte just stored reads back, whatever the list. -/
theorem read?_store_self (m : List Host.Cell) (off : Nat) (v : Byte) :
    read? (store m off v) off = some v := by
  induction m with
  | nil => simp [store, read?]
  | cons c rest ih =>
    simp only [store]
    split
    · simp [read?]
    · split
      · simp [read?]
      · rename_i h
        simp [read?, Ne.symm h, ih]

/-- Every offset listed after the first one is above it. -/
theorem wf_cons_iff (c : Host.Cell) (rest : List Host.Cell) :
    wf (c :: rest) = true ↔ (∀ d ∈ rest, c.1 < d.1) ∧ wf rest = true := by
  induction rest generalizing c with
  | nil => simp [wf]
  | cons d r ih =>
    simp only [wf, Bool.and_eq_true, decide_eq_true_eq, List.mem_cons, forall_eq_or_imp]
    constructor
    · rintro ⟨hcd, hw⟩
      exact ⟨⟨hcd, fun e he => lt_trans hcd (((ih d).1 hw).1 e he)⟩, hw⟩
    · rintro ⟨⟨hcd, -⟩, hw⟩
      exact ⟨hcd, hw⟩

theorem mem_store (m : List Host.Cell) (off : Nat) (v : Byte) (c : Host.Cell)
    (h : c ∈ store m off v) : c = (off, v) ∨ c ∈ m := by
  induction m with
  | nil => simpa [store] using h
  | cons d rest ih =>
    simp only [store] at h
    split at h
    · simpa using h
    · split at h
      · rcases List.mem_cons.1 h with h | h
        · exact .inl h
        · exact .inr (List.mem_cons_of_mem _ h)
      · rcases List.mem_cons.1 h with h | h
        · exact .inr (h ▸ List.mem_cons_self)
        · exact (ih h).imp_right (List.mem_cons_of_mem _)

/-- Storing a byte keeps the canonical form. -/
theorem wf_store (m : List Host.Cell) (off : Nat) (v : Byte) (h : wf m = true) :
    wf (store m off v) = true := by
  induction m with
  | nil => rfl
  | cons d rest ih =>
    obtain ⟨hlt, hrest⟩ := (wf_cons_iff d rest).1 h
    simp only [store]
    split
    · rename_i hod
      refine (wf_cons_iff _ _).2 ⟨?_, h⟩
      intro e he
      rcases List.mem_cons.1 he with he | he
      · exact he ▸ hod
      · exact lt_trans hod (hlt e he)
    · split
      · rename_i heq
        exact (wf_cons_iff _ _).2 ⟨fun e he => heq ▸ hlt e he, hrest⟩
      · rename_i hnlt hne
        refine (wf_cons_iff _ _).2 ⟨?_, ih hrest⟩
        intro e he
        rcases mem_store _ _ _ _ he with he | he
        · rw [he]; exact Nat.lt_of_le_of_ne (Nat.le_of_not_lt hnlt) (Ne.symm hne)
        · exact hlt e he

/-- Storing a byte sequence keeps the canonical form. -/
theorem wf_storeList (vs : List Byte) (m : List Host.Cell) (off : Nat) (h : wf m = true) :
    wf (storeList m off vs) = true := by
  induction vs generalizing m off with
  | nil => exact h
  | cons v rest ih => exact ih _ _ (wf_store m off v h)

/-- Reading after storing a byte sequence. -/
theorem read?_storeList (vs : List Byte) (m : List Host.Cell) (off a : Nat) (h : wf m = true) :
    read? (storeList m off vs) a =
      if off ≤ a ∧ a < off + vs.length then vs[a - off]? else read? m a := by
  induction vs generalizing m off with
  | nil =>
    have : ¬ (off ≤ a ∧ a < off) := by omega
    simp [storeList, this]
  | cons v rest ih =>
    rw [storeList, ih _ _ (wf_store m off v h), read?_store m off v a h]
    by_cases h1 : a = off
    · subst h1
      simp
    · by_cases h2 : off + 1 ≤ a ∧ a < off + 1 + rest.length
      · have h3 : off ≤ a ∧ a < off + (rest.length + 1) := by omega
        have h4 : a - off = (a - (off + 1)) + 1 := by omega
        simp [h2, h3, h4]
      · have h3 : ¬ (off ≤ a ∧ a < off + (rest.length + 1)) := by omega
        simp only [h1, h2, if_false, List.length_cons, h3]

theorem below_iff (n : Nat) (m : List Host.Cell) :
    below n m = true ↔ ∀ c ∈ m, c.1 < n := by
  simp [below]

/-- Storing a byte inside the buffer keeps every offset inside it. -/
theorem below_store (n : Nat) (m : List Host.Cell) (off : Nat) (v : Byte) (hm : below n m = true)
    (h : off < n) : below n (store m off v) = true := by
  rw [below_iff] at hm ⊢
  intro c hc
  rcases mem_store m off v c hc with rfl | hc
  · exact h
  · exact hm c hc

/-- A byte sequence stored at `off` lists offsets below its end only. -/
theorem below_storeList (vs : List Byte) (n : Nat) (m : List Host.Cell) (off : Nat)
    (hm : below n m = true) (h : off + vs.length ≤ n) : below n (storeList m off vs) = true := by
  induction vs generalizing m off with
  | nil => exact hm
  | cons v rest ih =>
    rw [List.length_cons] at h
    exact ih _ _ (below_store n m off v hm (by omega)) (by omega)

end Sys2Proof.Machine.Memory

namespace Sys2Proof.Machine

/-- Reset leaves both buffers in canonical form. -/
theorem State.reset_wf :
    Memory.wf State.reset.ibuf = true ∧ Memory.wf State.reset.obuf = true := ⟨rfl, rfl⟩

/-- A host write of an IBUF byte keeps the canonical form. -/
theorem State.setIbuf_wf (s : State) (off : Nat) (v : Byte) (h : Memory.wf s.ibuf = true) :
    Memory.wf (s.setIbuf off v).ibuf = true := Memory.wf_store _ _ _ h

/-- A result written to OBUF is in canonical form, whatever OBUF was. -/
theorem State.setObuf_wf (s : State) (out : List Byte) :
    Memory.wf (s.setObuf out).obuf = true := Memory.wf_storeList _ _ _ rfl

end Sys2Proof.Machine
end

