-- ==== Sys2Proof/Laws/Ops.lean ====
section
/-! SUPPORT. What each shared operation does, said once: engine reads, the completion, the checks before
an operand is read, a host access. -/

namespace Sys2Proof.Machine

theorem Config.ibufSize_ge : 80 ≤ Config.ibufSize := by
  unfold Config.ibufSize; omega

theorem Config.ibufSize_le : Config.ibufSize ≤ 2 ^ 32 - 49 := by
  unfold Config.ibufSize; omega

@[simp] theorem State.memRead_length (s : State) (off n : Nat) : (s.memRead off n).length = n := by
  simp [State.memRead]

@[simp] theorem State.memRead_getElem (s : State) (off n i : Nat) (h : i < (s.memRead off n).length) :
    (s.memRead off n)[i] = s.ibufByte (off + i) := by
  simp [State.memRead]

@[simp] theorem State.memReadVector_toList (s : State) (off n : Nat) :
    (s.memReadVector off n).toList = s.memRead off n := rfl

/-- After a successful completion the OBUF bytes below the output's length are the output, and the
others are free. -/
theorem State.finish_obufByte (s : State) (out : List Byte) (j : Nat) :
    (s.finish out).obufByte j = (out[j]?).getD (Config.obufUnspecified s.draws j) := by
  have h := Memory.read?_storeList out [] 0 j rfl
  simp only [State.obufByte, State.finish_obuf, State.finish_obufDraw, h, Nat.zero_le, true_and,
    Nat.zero_add, Nat.sub_zero, Memory.read?_nil]
  split
  · rfl
  · rename_i hj
    rw [List.getElem?_eq_none (Nat.le_of_not_lt hj)]

/-- After an engine error every OBUF byte is free. -/
theorem State.raise_obufByte (s : State) (e : EngineError) (j : Nat) :
    (s.raise e).obufByte j = Config.obufUnspecified s.draws j := rfl

/-- IBUF after the host writes one byte. -/
theorem State.setIbuf_ibufByte (s : State) (off : Nat) (v : Byte) (a : Nat)
    (h : Memory.wf s.ibuf = true) :
    (s.setIbuf off v).ibufByte a = if a = off then v else s.ibufByte a := by
  simp only [State.ibufByte, State.setIbuf_ibuf, State.setIbuf_ibufDraw,
    Memory.read?_store _ _ _ _ h]
  split <;> rfl

/-- IBUF reads the same in two states with the same IBUF. -/
theorem State.ibufByte_congr {s t : State} (h : t.ibuf = s.ibuf) (h' : t.ibufDraw = s.ibufDraw)
    (a : Nat) : t.ibufByte a = s.ibufByte a := by
  simp [State.ibufByte, h, h']

/-- The key-using commands' checks pass exactly when KEYED = 1 and the operand fits IBUF. -/
theorem State.keyedInput_eq_ok (s : State) (km : KeyMaterial) (x : List Byte) :
    s.keyedInput = .ok (km, x) ↔
      s.key = some km ∧ s.n0 ≤ Config.ibufSize ∧ x = s.memRead 0 s.n0 := by
  unfold State.keyedInput State.requireKeys State.readInput
  cases hk : s.key with
  | none => simp
  | some k =>
    by_cases hn : s.n0 > Config.ibufSize
    · simp [hn]
    · simp [hn, Nat.le_of_not_lt hn, eq_comm]

/-- They fail with NotKeyed, else with LengthError (R406, R407, R411). -/
theorem State.keyedInput_eq_error (s : State) (e : EngineError) :
    s.keyedInput = .error e ↔
      (s.key = none ∧ e = .notKeyed) ∨
        (s.key.isSome ∧ Config.ibufSize < s.n0 ∧ e = .lengthError) := by
  unfold State.keyedInput State.requireKeys State.readInput
  cases hk : s.key with
  | none => simp [eq_comm]
  | some k =>
    by_cases hn : s.n0 > Config.ibufSize
    · simp [hn, eq_comm]
    · simp [hn]

/-- The state in which a command's completion is committed: as the command found it, but for K_MSG, the
draw counter and, for LOAD_KEYS, the key store. -/
structure SameForCommand (s s' : State) : Prop where
  cmd : s'.cmd = s.cmd
  len0 : s'.len0 = s.len0
  len1 : s'.len1 = s.len1
  len2 : s'.len2 = s.len2
  ibuf : s'.ibuf = s.ibuf
  ibufDraw : s'.ibufDraw = s.ibufDraw
  pending : s'.pending = s.pending
  reads : s'.reads = s.reads

theorem SameForCommand.refl (s : State) : SameForCommand s s := ⟨rfl, rfl, rfl, rfl, rfl, rfl, rfl, rfl⟩

/-- The ways a command can end: an engine error with the key store kept, or a success of a state that
agrees with the command's, with the key store kept by every command but LOAD_KEYS. -/
theorem exec_cases (i : Instr) (s : State) :
    (∃ e, exec i s = .next (s.raise e)) ∨
      (∃ s' out, exec i s = .next (s'.finish out) ∧ SameForCommand s s' ∧
        (i ≠ .loadKeys → s'.key = s.key)) := by
  have hv : ∀ (s : State) (c vk : List Byte), (∃ e, s.finishVernamDec c vk = s.raise e) ∨
      ∃ s' out, s.finishVernamDec c vk = s'.finish out ∧ SameForCommand s s' ∧ s'.key = s.key := by
    intro s c vk
    unfold State.finishVernamDec
    cases vernamDecBytes Config.ks c vk with
    | error e => exact .inl ⟨e, rfl⟩
    | ok out => exact .inr ⟨_, out, rfl, ⟨rfl, rfl, rfl, rfl, rfl, rfl, rfl, rfl⟩, rfl⟩
  cases i with
  | loadKeys =>
    simp only [exec, execLoadKeys]
    cases s.keysInput with
    | error e => exact .inl ⟨e, rfl⟩
    | ok km => exact .inr ⟨_, [], rfl, ⟨rfl, rfl, rfl, rfl, rfl, rfl, rfl, rfl⟩, fun h => absurd rfl h⟩
  | clear => exact .inr ⟨s, [], rfl, .refl s, fun _ => rfl⟩
  | keystream =>
    simp only [exec, execKeystream]
    cases s.keystreamInput with
    | error e => exact .inl ⟨e, rfl⟩
    | ok p => exact .inr ⟨s, _, rfl, .refl s, fun _ => rfl⟩
  | combine fn =>
    simp only [exec, execCombine]
    cases s.combineInput with
    | error e => exact .inl ⟨e, rfl⟩
    | ok p => exact .inr ⟨s, _, rfl, .refl s, fun _ => rfl⟩
  | vernamEnc =>
    simp only [exec, execVernamEnc]
    cases s.keyedInput with
    | error e => exact .inl ⟨e, rfl⟩
    | ok p => exact .inr ⟨_, _, rfl, ⟨rfl, rfl, rfl, rfl, rfl, rfl, rfl, rfl⟩, fun _ => rfl⟩
  | vernamDec =>
    simp only [exec, execVernamDec]
    cases s.keyedInput with
    | error e => exact .inl ⟨e, rfl⟩
    | ok p =>
      rcases hv s p.2 p.1.vernam.toList with ⟨e, he⟩ | ⟨s', out, h, h1, h2⟩
      · exact .inl ⟨e, congrArg _ he⟩
      · exact .inr ⟨s', out, congrArg _ h, h1, fun _ => h2⟩
  | aesEnc =>
    simp only [exec, execAesEnc]
    cases s.keyedInput with
    | error e => exact .inl ⟨e, rfl⟩
    | ok p => exact .inr ⟨s, _, rfl, .refl s, fun _ => rfl⟩
  | aesDec =>
    simp only [exec, execAesDec]
    cases s.keyedInput with
    | error e => exact .inl ⟨e, rfl⟩
    | ok p =>
      cases h : aesDecBytes p.1 p.2 with
      | error e => exact .inl ⟨e, by simp [h, State.commit]⟩
      | ok out => exact .inr ⟨s, out, by simp [h, State.commit], .refl s, fun _ => rfl⟩
  | encrypt =>
    simp only [exec, execEncrypt]
    cases s.keyedInput with
    | error e => exact .inl ⟨e, rfl⟩
    | ok p => exact .inr ⟨_, _, rfl, ⟨rfl, rfl, rfl, rfl, rfl, rfl, rfl, rfl⟩, fun _ => rfl⟩
  | decrypt =>
    simp only [exec, execDecrypt]
    cases s.keyedInput with
    | error e => exact .inl ⟨e, rfl⟩
    | ok p =>
      cases h : aesDecBytes p.1 p.2 with
      | error e => exact .inl ⟨e, by simp [h]⟩
      | ok v =>
        simp only [h]
        rcases hv s v p.1.vernam.toList with ⟨e, he⟩ | ⟨s', out, h, h1, h2⟩
        · exact .inl ⟨e, congrArg _ he⟩
        · exact .inr ⟨s', out, congrArg _ h, h1, fun _ => h2⟩

/-- What a step can be: the engine's completion, the host's next access, or waiting. -/
theorem step_cases (s : State) :
    (s.completes = true ∧ step s = completionStep s) ∨
      (s.completes = false ∧ ∃ op rest, s.pending = op :: rest ∧
        step s = hostStep op { s with pending := rest, delay := s.delay - 1 }) ∨
      (s.busy = false ∧ s.pending = [] ∧ step s = .next s) := by
  unfold step
  by_cases hc : s.completes = true
  · exact .inl ⟨hc, by rw [if_pos hc]⟩
  · have hf : s.completes = false := by simpa using hc
    rw [if_neg hc]
    unfold hostTurn
    cases hp : s.pending with
    | nil =>
      refine .inr (.inr ⟨?_, rfl, rfl⟩)
      simpa [State.completes, hp] using hf
    | cons op rest => exact .inr (.inl ⟨hf, op, rest, rfl, rfl⟩)

/-- What the completion step can be (R131, R404). -/
theorem completionStep_cases (s : State) :
    (∃ i, decode s.cmd = .ok i ∧ completionStep s = exec i s) ∨
      (∃ e, decode s.cmd = .error e ∧ completionStep s = .next (s.raise .illegalCommand)) := by
  unfold completionStep
  cases h : decode s.cmd with
  | ok i => exact .inl ⟨i, rfl, rfl⟩
  | error e => exact .inr ⟨e, rfl, rfl⟩

/-- One more step of a run. -/
theorem run_succ_of_step (k : Nat) (s t : State) (h : step s = .next t) :
    Host.Core.run core (k + 1) s = Host.Core.run core k t := by
  have h' : core.step s = .next t := h
  simp only [Host.Core.run, h']

/-- A run of `k` steps and then of `n`. -/
theorem run_add (k n : Nat) (s t : State) (h : Host.Core.run core k s = .next t) :
    Host.Core.run core (k + n) s = Host.Core.run core n t := by
  induction k generalizing s with
  | zero =>
    have hs : s = t := by injection h
    rw [Nat.zero_add, hs]
  | succ k ih =>
    cases hc : core.step s with
    | next s' =>
      rw [run_succ_of_step k s s' hc] at h
      rw [Nat.add_right_comm, run_succ_of_step (k + n) s s' hc, ih s' h]
    | fault r => simp [Host.Core.run, hc] at h
    | refused r => simp [Host.Core.run, hc] at h

end Sys2Proof.Machine
end

