-- ==== Sys2Proof/Laws/HostProgram.lean ====
section
/-! SUPPORT. How the host's programs run: an operand write, a poll loop to its end, and a whole command
of the wrapper, each said once. -/

namespace Sys2Proof.Machine

/-- The host's turn while no command is in progress. -/
theorem step_host (s : State) (op : HostOp) (rest : List HostOp) (h : s.completes = false)
    (hp : s.pending = op :: rest) :
    step s = hostStep op { s with pending := rest, delay := s.delay - 1 } := by
  simp [step, h, hostTurn, hp]

theorem State.completes_of_idle {s : State} (h : s.busy = false) : s.completes = false := by
  simp [State.completes, h]

/-- `wrbuf off, x` (R140), while no command is in progress, stores `x` in IBUF and changes nothing
else of the LCE. -/
theorem run_opsWrbuf (x : List Byte) (off : Nat) (rest : List HostOp) (s : State)
    (hb : s.busy = false) (hp : s.pending = opsWrbuf off x ++ rest)
    (hx : off + x.length ≤ Config.ibufSize) :
    Host.Core.run core x.length s = .next
      { s with ibuf := Memory.storeList s.ibuf off x, pending := rest, delay := s.delay - x.length } := by
  induction x generalizing off s with
  | nil => subst hp; rfl
  | cons v x ih =>
    have hx' : off + (x.length + 1) ≤ Config.ibufSize := hx
    have hok : bufAccessOk .ibuf off = true := decide_eq_true (show off < Config.ibufSize by omega)
    have hs := step_host s _ _ (State.completes_of_idle hb) hp
    simp only [hostStep, hok, if_true, State.hostWriteBuf, State.guardBusy, hb, Bool.false_eq_true,
      if_false] at hs
    refine (run_succ_of_step _ _ _ hs).trans ((ih (off + 1) _ ?_ rfl (by omega)).trans ?_)
    · rfl
    · simp [State.setIbuf, Memory.storeList, Nat.sub_sub, Nat.add_comm 1, hb]

/-- `wr LEN0, v` (R140), while no command is in progress. -/
theorem step_opWr_len0 (s : State) (v : Word) (rest : List HostOp) (hb : s.busy = false)
    (hp : s.pending = opWr .len0 v :: rest) :
    step s = .next { s with len0 := v, pending := rest, delay := s.delay - 1 } := by
  rw [step_host s _ _ (State.completes_of_idle hb) hp]
  simp [opWr, RegName.offset, hostStep, regAccessOk_of, regAt, State.hostWriteReg, State.guardBusy, hb]

/-- `cmd M` (R140), while no command is in progress, launches the command (R130). -/
theorem step_opCmd (s : State) (i : Instr) (rest : List HostOp) (hb : s.busy = false)
    (hp : s.pending = opCmd i :: rest) :
    step s = .next (State.launch { s with pending := rest, delay := s.delay - 1 } (encode i)) := by
  rw [step_host s _ _ (State.completes_of_idle hb) hp]
  simp [opCmd, opWr, RegName.offset, hostStep, regAccessOk_of, regAt, State.hostWriteReg,
    State.guardBusy, hb]

/-- A poll loop while BUSY reads STATUS until the completion is due, and changes nothing else. -/
theorem run_poll_busy (n : Nat) (s : State) (hb : s.busy = true) (hd : s.delay = n)
    (hp : s.pending = [.poll]) :
    ∃ k s', Host.Core.run core k s = .next s' ∧ s'.completes = true ∧
      s' = { s with reads := s'.reads, delay := 0 } := by
  induction n generalizing s with
  | zero => exact ⟨0, s, rfl, by simp [State.completes, hb, hd], by rw [← hd]⟩
  | succ n ih =>
    have hc : s.completes = false := by simp [State.completes, hb, hd, hp]
    have hs : step s = .next { s with reads := .word s.status :: s.reads, delay := n } := by
      rw [step_host s _ _ hc hp]
      simp [hostStep, State.hostPoll, State.hostReadReg, State.observe, State.regValue, State.status, State.keyed, hb, hd, hp]
    obtain ⟨k, s', hr, hc', he⟩ := ih { s with reads := .word s.status :: s.reads, delay := n } hb rfl hp
    exact ⟨k + 1, s', by rw [run_succ_of_step _ _ _ hs, hr], hc', he⟩

/-- A poll that finds the command ended is the last one. -/
theorem step_poll_done (s : State) (hb : s.busy = false) (hd : s.done = true)
    (hp : s.pending = [.poll]) :
    step s = .next
      { s with reads := .word s.status :: s.reads, pending := [], delay := s.delay - 1 } := by
  rw [step_host s _ _ (State.completes_of_idle hb) hp]
  simp [hostStep, State.hostPoll, State.hostReadReg, State.observe, State.regValue, State.status, State.keyed,
    hb, hd]

/-- What `wrbuf 0, x ; wr LEN0, len(x) ; cmd M ; poll` leaves (R350, R351): what the command `M` makes of a
state `s'` with the operand in IBUF, but for the reads of the poll loop. -/
theorem run_opsTransform (i : Instr) (x : List Byte) (s : State) (hb : s.busy = false)
    (hx : x.length ≤ Config.ibufSize) (hd : decode (encode i) = .ok i) :
    ∃ k s' t u, Host.Core.run core k { s with pending := opsTransform i x } = .next u ∧
      s'.key = s.key ∧ s'.len0 = BitVec.ofNat 32 x.length ∧
      s'.ibuf = Memory.storeList s.ibuf 0 x ∧ exec i s' = .next t ∧
      u = { t with reads := u.reads, pending := [], delay := u.delay } := by
  obtain ⟨s1, h1, h1b, h1p, h1k, h1i⟩ : ∃ s1 : State,
      Host.Core.run core x.length { s with pending := opsTransform i x } = .next s1 ∧
      s1.busy = false ∧ s1.pending = opWr .len0 (BitVec.ofNat 32 x.length) :: opsRun i ∧
      s1.key = s.key ∧ s1.ibuf = Memory.storeList s.ibuf 0 x :=
    ⟨_, run_opsWrbuf x 0 _ { s with pending := opsTransform i x } hb rfl (by omega), hb, rfl, rfl, rfl⟩
  have h2 := step_opWr_len0 s1 _ _ h1b h1p
  obtain ⟨s3, h3, h3b, h3p, h3c, h3l, h3k, h3i⟩ : ∃ s3 : State,
      step { s1 with len0 := BitVec.ofNat 32 x.length, pending := opsRun i, delay := s1.delay - 1 } =
        .next s3 ∧ s3.busy = true ∧ s3.pending = [.poll] ∧ s3.cmd = encode i ∧
      s3.len0 = BitVec.ofNat 32 x.length ∧ s3.key = s1.key ∧ s3.ibuf = s1.ibuf :=
    ⟨_, step_opCmd _ i [.poll] h1b rfl, rfl, rfl, rfl, rfl, rfl, rfl⟩
  obtain ⟨k, s', h4, hc, he⟩ := run_poll_busy _ s3 h3b rfl h3p
  obtain ⟨t, ht, htb, htd, htp⟩ : ∃ t, exec i s' = .next t ∧ t.busy = false ∧ t.done = true ∧
      t.pending = s'.pending := by
    rcases exec_cases i s' with ⟨e, h⟩ | ⟨s'', out, h, hs, -⟩
    · exact ⟨_, h, rfl, rfl, rfl⟩
    · exact ⟨_, h, rfl, rfl, hs.pending⟩
  have hcmd : decode s'.cmd = .ok i := by rw [he]; exact h3c ▸ hd
  have h5 : step s' = .next t := by
    simp [step, hc, completionStep, hcmd, ht]
  have h6 := step_poll_done t htb htd (by rw [htp, he]; exact h3p)
  have hrun := (run_add _ (k + 2 + 1 + 1) _ _ h1).trans ((run_succ_of_step _ _ _ h2).trans
    ((run_succ_of_step _ _ _ h3).trans ((run_add _ 2 _ _ h4).trans
    ((run_succ_of_step _ _ _ h5).trans (run_succ_of_step 0 _ _ h6)))))
  refine ⟨_, s', t, _, hrun, ?_, ?_, ?_, ht, rfl⟩
  · rw [he]; exact h3k.trans h1k
  · rw [he]; exact h3l
  · rw [he]; exact h3i.trans h1i

end Sys2Proof.Machine
end

