-- ==== Sys2Proof/Laws/PerInstr.lean ====
section
/-! SUPPORT. One family of facts about every command as syntax: the fields of its command word. -/

namespace Sys2Proof.Laws.EncodedFields

/-- The fields of the command word of `i` (R120, R127): RSV is 0, OPC is the opcode of rule R122, and FN
is COMBINE's truth table and 0 for every other command. -/
def Statement (i : Instr) : Prop :=
  rsvField (encode i) = 0 ∧
    match i with
    | .loadKeys => opcField (encode i) = 0x01 ∧ fnField (encode i) = 0
    | .clear => opcField (encode i) = 0x02 ∧ fnField (encode i) = 0
    | .keystream => opcField (encode i) = 0x10 ∧ fnField (encode i) = 0
    | .combine fn => opcField (encode i) = 0x11 ∧ fnField (encode i) = fn
    | .vernamEnc => opcField (encode i) = 0x20 ∧ fnField (encode i) = 0
    | .vernamDec => opcField (encode i) = 0x21 ∧ fnField (encode i) = 0
    | .aesEnc => opcField (encode i) = 0x30 ∧ fnField (encode i) = 0
    | .aesDec => opcField (encode i) = 0x31 ∧ fnField (encode i) = 0
    | .encrypt => opcField (encode i) = 0x40 ∧ fnField (encode i) = 0
    | .decrypt => opcField (encode i) = 0x41 ∧ fnField (encode i) = 0

theorem loadKeys : Statement .loadKeys := ⟨rfl, rfl, rfl⟩
theorem clear : Statement .clear := ⟨rfl, rfl, rfl⟩
theorem keystream : Statement .keystream := ⟨rfl, rfl, rfl⟩
theorem combine (fn : BitVec 4) : Statement (.combine fn) := by
  simp only [Statement]
  revert fn
  decide
theorem vernamEnc : Statement .vernamEnc := ⟨rfl, rfl, rfl⟩
theorem vernamDec : Statement .vernamDec := ⟨rfl, rfl, rfl⟩
theorem aesEnc : Statement .aesEnc := ⟨rfl, rfl, rfl⟩
theorem aesDec : Statement .aesDec := ⟨rfl, rfl, rfl⟩
theorem encrypt : Statement .encrypt := ⟨rfl, rfl, rfl⟩
theorem decrypt : Statement .decrypt := ⟨rfl, rfl, rfl⟩

end Sys2Proof.Laws.EncodedFields
end

