-- ==== Sys2Proof/Tests/Slice0.lean ====
section
/-! SUPPORT. Tests with expected results from the spec (its rules and 95_test_vectors.md), and a witness
for the hypotheses of every statement. -/

namespace Sys2Proof.Tests

open Sys2Proof.Machine

/-! ### Helpers -/

/-- The bytes of hexadecimal digits: `n` bytes of the number `v`, most significant first. -/
def hex (n v : Nat) : List Byte := (List.range n).map fun i => BitVec.ofNat 8 (v >>> (8 * (n - 1 - i)))

/-- The Key Material of the spec's vectors: `rep(01,32)`, `rep(02,16)`, `rep(03,32)`. -/
def keys : KeyMaterial where
  aes := ⟨⟨List.replicate 32 1⟩, rfl⟩
  iv := ⟨⟨List.replicate 16 2⟩, rfl⟩
  vernam := ⟨⟨List.replicate 32 3⟩, rfl⟩

/-- The draw `k0` of the spec's vectors. -/
def k0 : Vector Byte 32 := ⟨⟨List.replicate 32 0⟩, rfl⟩

/-- After reset, with `bytes` in IBUF from offset 0 and these lengths. -/
def loaded (bytes : List Byte) (n0 n1 n2 : Word) : State :=
  { State.reset with ibuf := Memory.storeList [] 0 bytes, len0 := n0, len1 := n1, len2 := n2 }

/-- The same, keyed. -/
def keyedState (bytes : List Byte) (n0 : Word) : State :=
  { loaded bytes n0 0 0 with key := some keys }

/-- The outcome is a next state of which `p` holds. -/
def nextHas (o : Outcome) (p : State → Bool) : Bool :=
  match o with
  | .next t => p t
  | .fault _ => false
  | .refused _ => false

/-- `"hello"` -/
def hello : List Byte := [0x68, 0x65, 0x6c, 0x6c, 0x6f]

/-- The ciphertext of V-A2. -/
def ciphertextA2 : List Byte := hex 16 0xaaf7a0b1c5d4d4b8c8abeaa891ec2755

/-- The ciphertext of V-A5. -/
def ciphertextA5 : List Byte :=
  hex 16 0x62ae12f324bfea08d5f675b513026bbf ++ hex 16 0xf0b2ca39373cfed09b823ff793d298cf
    ++ hex 16 0x4a45a234b218233085b4ea009784889e

/-- The ciphertext of V-A9. -/
def ciphertextA9 : List Byte := hex 16 0x62ae12f324bfea08d5f675b513026bbf

/-! ### Well-formedness: an ill-formed term for each check (R85, R86) -/

theorem test_wf_refuses_width : (HostOp.regRead 16 0x04).wf = false := by decide
theorem test_wf_refuses_misaligned : (HostOp.regWrite 32 0x06 0).wf = false := by decide
theorem test_wf_refuses_window : (HostOp.regRead 32 0x40).wf = false := by decide
theorem test_wf_refuses_ibuf_end : (HostOp.bufWrite .ibuf Config.ibufSize 0).wf = false := by
  simp [HostOp.wf, bufAccessOk, Buffer.size]
theorem test_wf_refuses_obuf_end : (HostOp.bufRead .obuf (Config.ibufSize + 48)).wf = false := by
  simp [HostOp.wf, bufAccessOk, Buffer.size, Config.obufSize]
theorem test_wf_accepts_last_register : (HostOp.regRead 32 0x3C).wf = true := by decide

/-! ### Decoding: RSV, FN and OPC written out (R120, R122) -/

theorem test_decode_loadKeys : decode (0b00000000000000000000#20 ++ 0b0000#4 ++ 0b00000001#8) =
    .ok .loadKeys := rfl
theorem test_decode_clear : decode (0b00000000000000000000#20 ++ 0b0000#4 ++ 0b00000010#8) =
    .ok .clear := rfl
theorem test_decode_keystream : decode (0b00000000000000000000#20 ++ 0b0000#4 ++ 0b00010000#8) =
    .ok .keystream := rfl
theorem test_decode_combine : decode (0b00000000000000000000#20 ++ 0b1101#4 ++ 0b00010001#8) =
    .ok (.combine 0b1101) := rfl
theorem test_decode_vernamEnc : decode (0b00000000000000000000#20 ++ 0b0000#4 ++ 0b00100000#8) =
    .ok .vernamEnc := rfl
theorem test_decode_vernamDec : decode (0b00000000000000000000#20 ++ 0b0000#4 ++ 0b00100001#8) =
    .ok .vernamDec := rfl
theorem test_decode_aesEnc : decode (0b00000000000000000000#20 ++ 0b0000#4 ++ 0b00110000#8) =
    .ok .aesEnc := rfl
theorem test_decode_aesDec : decode (0b00000000000000000000#20 ++ 0b0000#4 ++ 0b00110001#8) =
    .ok .aesDec := rfl
theorem test_decode_encrypt : decode (0b00000000000000000000#20 ++ 0b0000#4 ++ 0b01000000#8) =
    .ok .encrypt := rfl
theorem test_decode_decrypt : decode (0b00000000000000000000#20 ++ 0b0000#4 ++ 0b01000001#8) =
    .ok .decrypt := rfl

/-- V-E1, V-E3, V-E5, V-B22: the three clauses of rule R123. -/
theorem test_decode_refuses : decode 0x00000000 = .error .undefinedOpcode ∧
    decode 0x00000140 = .error .functionNotZero ∧ decode 0x00001040 = .error .reservedNotZero ∧
    decode 0x00001011 = .error .reservedNotZero := ⟨rfl, rfl, rfl, rfl⟩

/-- Every command word steps to a next state as the first word after reset. -/
theorem test_fetch_runs : [0x1, 0x2, 0x10, 0x611, 0x20, 0x21, 0x30, 0x31, 0x40, 0x41].all
    (fun w => nextHas (step (State.reset.withFetchWord 32 w)) fun _ => true) = true := by decide

/-! ### The commands -/

/-- V-L1 -/
theorem test_loadKeys_loads : nextHas (exec .loadKeys (loaded
      (List.replicate 32 1 ++ List.replicate 16 2 ++ List.replicate 32 3) 32 16 32))
    (fun t => t.status == 0x00000005#32 && t.outLen == 0 && t.key == some keys) = true := by
  decide +kernel

/-- V-L6 -/
theorem test_loadKeys_locked : nextHas (exec .loadKeys { keyedState [] 32 with len1 := 15, len2 := 32 })
    (fun t => t.status == 0x0000120D#32 && t.key == some keys) = true := by decide +kernel

/-- V-L8 -/
theorem test_clear_acknowledges : nextHas (exec .clear
      { keyedState [] 0 with done := true, err := true, errCode := 0x02, outLen := 7 })
    (fun t => t.status == 0x00000005#32 && t.outLen == 0) = true := by decide +kernel

/-- V-B7: XOR of operands of unequal length. -/
theorem test_combine_xor : nextHas (exec (.combine 0x6) (loaded [0xF0, 0x0F, 0xAA, 0xCC, 0xCC] 3 2 0))
    (fun t => t.outLen == 2 && t.obufByte 0 == 0x3C && t.obufByte 1 == 0xC3
      && t.status == 0x00000004#32) = true := by decide +kernel

/-- V-B5: A_AND_NOTB tells the operands apart. -/
theorem test_combine_a_and_not_b :
    nextHas (exec (.combine 0x4) (loaded [0xF0, 0x0F, 0xAA, 0xCC, 0xCC] 3 2 0))
    (fun t => t.obufByte 0 == 0x30 && t.obufByte 1 == 0x03) = true := by decide +kernel

/-- V-K1: the first digest of KS_REF for the empty seed. -/
theorem test_ks_ref_digest : ksRefDigest [] 0 =
    hex 32 0xaf5570f5a1810b7af78caf4bc70a660f0df51e42baf91d4de5b2328de0e83dfc := by decide +kernel

/-- V-K9, V-K10: twelve bits of the stream that begins `af 55`, under both tail policies. -/
theorem test_keystream_tail :
    keystreamBytes (fun _ t => (bitsOf [0xaf, 0x55]).getD t false) .zeroPad [] 12 = [0xaf, 0x50] ∧
    keystreamBytes (fun _ t => (bitsOf [0xaf, 0x55]).getD t false) .truncate [] 12 = [0xaf] := by
  decide

/-- V-V1 with the keystream of V-K6. -/
theorem test_vernamEnc : vernamEncBytes
      (fun _ t => (bitsOf [0x95, 0x64, 0xa6, 0xc3, 0xcf]).getD t false) hello keys.vernam.toList
      k0.toList = List.replicate 32 0 ++ [0xfd, 0x01, 0xca, 0xaf, 0xa0] := by decide +kernel

/-- V-K6: that keystream is KS_REF's, for the seed `k0 ++ KEY.vernam` in this order. -/
theorem test_vernam_seed :
    (ksRefDigest (vernamSeed k0.toList keys.vernam.toList) 0).take 5 =
      [0x95, 0x64, 0xa6, 0xc3, 0xcf] := by decide +kernel

/-- V-V5: 31 bytes are too few. -/
theorem test_vernamDec_short : nextHas (exec .vernamDec (keyedState (List.replicate 31 0) 31))
    (fun t => t.status == 0x0000020D#32 && t.outLen == 0) = true := by decide +kernel

/-- V-A2 -/
theorem test_aesEnc_bytes : aesEncBytes keys hello = ciphertextA2 := by decide +kernel

/-- V-A6 -/
theorem test_aesDec_bytes : aesDecBytes keys ciphertextA2 = .ok hello := by decide +kernel

/-- V-A5 read backwards: three blocks, of which the last is padding. -/
theorem test_aesDec_bytes_three_blocks :
    aesDecBytes keys ciphertextA5 = .ok (List.replicate 32 0) := by decide +kernel

/-- V-A9: the last byte of the decrypted block is 0. -/
theorem test_aesDec_bad_padding : cbcD keys.aes keys.iv ciphertextA9 = List.replicate 16 0 := by
  decide +kernel

/-- V-A13 -/
theorem test_aesDec_length : nextHas (exec .aesDec (keyedState (ciphertextA5.take 15) 15))
    (fun t => t.status == 0x0000030D#32) = true := by decide +kernel

/-- V-C3 with `VernamEnc([], vk, k0) = rep(00,32)`. -/
theorem test_encrypt_empty (ks : List Byte → Nat → Bool) :
    encryptBytes ks keys [] k0.toList = ciphertextA5 := by
  have h : vernamEncBytes ks [] keys.vernam.toList k0.toList = List.replicate 32 0 := rfl
  rw [encryptBytes, h]
  decide +kernel

/-- V-C15 -/
theorem test_encrypt_not_keyed : nextHas (exec .encrypt (loaded hello 5 0 0))
    (fun t => t.status == 0x0000110C#32 && t.outLen == 0) = true := by decide +kernel

/-- V-C4 on V-C3 -/
theorem test_decrypt_empty (ks : List Byte → Nat → Bool) :
    decryptBytes ks keys ciphertextA5 = .ok [] := by
  rw [decryptBytes, test_aesDec_bytes_three_blocks]
  rfl

/-- V-C7's case, a validly padded ciphertext too short for the Vernam stage, on V-A2. -/
theorem test_decrypt_short (ks : List Byte → Nat → Bool) :
    decryptBytes ks keys ciphertextA2 = .error .invalidCiphertext := by
  rw [decryptBytes, test_aesDec_bytes]
  rfl

/-! ### The host's wrapper (R353, R357) -/

/-- R357 (e) and R353: `c3 a4` is `U+00E4`; overlong, surrogate, stray and truncated bytes are invalid. -/
theorem test_utf8 : utf8Decode [0xc3, 0xa4] = some ['ä'] ∧ utf8Decode [0xff] = none ∧
    utf8Decode [0xc0, 0x80] = none ∧ utf8Decode [0xed, 0xa0, 0x80] = none ∧
    utf8Decode [0x80] = none ∧ utf8Decode [0xe2, 0x82] = none := by decide

/-- R357 (a) to (c) and the spec's `{"a":1,"b":[true,null,"x"]}`. -/
theorem test_json : ((utf8Decode [0x7b, 0x7d]).map jsonValid = some true) ∧
    ((utf8Decode hello).map jsonValid = some false) ∧
    ((utf8Decode (0x22 :: hello ++ [0x22])).map jsonValid = some true) ∧
    ((utf8Decode (hex 27 0x7b2261223a312c2262223a5b747275652c6e756c6c2c2278225d7d)).map jsonValid =
      some true) := by decide +kernel

/-! ### Witnesses: a state and operands that meet the hypotheses of each statement -/

/-- A launched command word and nothing pending: the completion is due. -/
def launchedWord (w : Word) : State := State.reset.withFetchWord 32 w.toNat

/-- LEN0 past every buffer. -/
theorem tooLong : Config.ibufSize < (0xFFFFFFFF#32).toNat :=
  Nat.lt_of_le_of_lt Config.ibufSize_le (by decide)

/-- LEN0 at most the smallest IBUF. -/
theorem fits (n : Word) (h : n.toNat ≤ 80) : n.toNat ≤ Config.ibufSize :=
  Nat.le_trans h Config.ibufSize_ge

theorem memRead_keyed (bytes : List Byte) (n : Word) (h : n.toNat = bytes.length) :
    (List.range n.toNat).map (keyedState bytes n).ibufByte = bytes := by
  apply List.ext_getElem
  · simpa using h
  · intro i h1 h2
    have hr := Memory.read?_storeList bytes [] 0 i rfl
    simp only [List.getElem_map, List.getElem_range, State.ibufByte, keyedState, loaded, hr]
    simp [h2]

theorem witness_DecodeAgreesWithMaskAndMatch :
    ∃ row ∈ maskedRows, row.1 = 0xFFFFF0FF ∧ (0x00000611#32 &&& row.1 = row.2.1) :=
  ⟨_, .tail _ (.tail _ (.tail _ (.head _))), rfl, rfl⟩

/-- A due completion; the host's turn while BUSY with one host step left, and while not BUSY; and
waiting. -/
theorem witness_StepRunsTheDecodedCommand :
    ((launchedWord 0x40).completes = true ∧ decode (launchedWord 0x40).cmd = .ok .encrypt) ∧
    (∃ s : State, s.completes = false ∧ s.busy = true ∧ s.delay = 1 ∧ s.pending = [.poll]) ∧
    (∃ s : State, s.completes = false ∧ s.busy = false ∧ s.pending = [.bufWrite .ibuf 0 7, .poll]) ∧
    State.reset.busy = false ∧ State.reset.pending = [] :=
  ⟨⟨rfl, rfl⟩, ⟨{ launchedWord 0x40 with delay := 1, pending := [.poll] }, rfl, rfl, rfl, rfl⟩,
    ⟨{ State.reset with pending := [.bufWrite .ibuf 0 7, .poll] }, rfl, rfl, rfl⟩, rfl, rfl⟩

/-- One word for each clause of rule R123, the last with a legal FN. -/
theorem witness_IllegalWordRaisesIllegalCommand :
    ∀ w ∈ [0x00000000#32, 0x00000140#32, 0x00001040#32, 0x00001011#32],
      (launchedWord w).completes = true ∧ ¬ LegalCommandWord (launchedWord w).cmd := by
  intro w hw
  have hcmd : (launchedWord w).cmd = w := by
    apply BitVec.eq_of_toNat_eq
    have := w.isLt
    simp [launchedWord, State.withFetchWord]
    omega
  refine ⟨rfl, ?_⟩
  rw [hcmd]
  simp only [List.mem_cons, List.not_mem_nil, or_false] at hw
  unfold LegalCommandWord
  rcases hw with rfl | rfl | rfl | rfl <;> simp

theorem witness_CmdWriteLaunches : State.reset.busy = false ∧ (launchedWord 0x2).busy = true :=
  ⟨rfl, rfl⟩

/-- Accesses within the delay and past it, with an operand write that only comes after the poll, as in
program P2, and one that stands past the delay. -/
theorem witness_LaunchedCommandCompletes :
    (∃ s : State, s.busy = true ∧ s.delay = 5 ∧
      s.pending = [.regWrite 32 0x04 0, .poll, .bufWrite .ibuf 0 7, .reset] ∧
      (∀ op ∈ reachedWhileBusy s, op.wf = true ∧ writesOperand op = false) ∧
      .reset ∉ reachedWhileBusy s) ∧
    (∃ s : State, s.busy = true ∧ s.delay = 1 ∧ s.pending = [.regRead 32 0x3C, .regWrite 32 0x00 0x2] ∧
      (∀ op ∈ reachedWhileBusy s, op.wf = true ∧ writesOperand op = false) ∧
      .reset ∉ reachedWhileBusy s) :=
  ⟨⟨{ launchedWord 0x40 with
      delay := 5, pending := [.regWrite 32 0x04 0, .poll, .bufWrite .ibuf 0 7, .reset] },
    rfl, rfl, rfl, by decide, by decide⟩,
   ⟨{ launchedWord 0x40 with delay := 1, pending := [.regRead 32 0x3C, .regWrite 32 0x00 0x2] },
    rfl, rfl, rfl, by decide, by decide⟩⟩

theorem witness_LoadKeysCommand : (keyedState [] 32).key ≠ none ∧
    ((loaded [] 31 16 32).key = none ∧ (loaded [] 31 16 32).len0 ≠ 32) ∧
    ((loaded [] 32 15 32).key = none ∧ (loaded [] 32 15 32).len1 ≠ 16) ∧
    ((loaded [] 32 16 33).key = none ∧ (loaded [] 32 16 33).len2 ≠ 32) ∧
    ((loaded [] 32 16 32).key = none ∧ (loaded [] 32 16 32).len0 = 32 ∧
      (loaded [] 32 16 32).len1 = 16 ∧ (loaded [] 32 16 32).len2 = 32) := by decide

/-- The second disjunct of the LengthError clause holds only of implementations whose OBUF has fewer than
2^29 bytes (V-K15). -/
theorem witness_KeystreamCommand :
    (loaded [] 0xFFFFFFFF 8 0).len0.toNat > Config.ibufSize ∧
    ((loaded [] 80 12 0).len0.toNat ≤ Config.ibufSize ∧
      outBytes Config.bytesOfTail (loaded [] 80 12 0).len1.toNat ≤ Config.obufSize) := by
  refine ⟨tooLong, fits 80 (by decide), ?_⟩
  have h : ∀ tail, outBytes tail 12 ≤ 2 := by
    intro tail
    cases tail <;> decide
  exact Nat.le_trans (h _) (by unfold Config.obufSize; omega)

theorem witness_TailPolicyLengths : 0 < outBytes .zeroPad [true].length ∧
    0 < outBytes .truncate (List.replicate 8 true).length := by decide

/-- V-B21, and two operands that fill the smallest IBUF. -/
theorem witness_CombineCommand :
    (loaded [] 0xFFFFFFFF 0xFFFFFFFF 0).len0.toNat + (loaded [] 0xFFFFFFFF 0xFFFFFFFF 0).len1.toNat
      > Config.ibufSize ∧
    (loaded [] 40 40 0).len0.toNat + (loaded [] 40 40 0).len1.toNat ≤ Config.ibufSize :=
  ⟨Nat.lt_of_lt_of_le tooLong (by decide), Nat.le_trans (by decide) Config.ibufSize_ge⟩

/-- The hypotheses that VERNAM_ENC, AES_ENC and ENCRYPT share. -/
theorem witness_keyed_and_length :
    State.reset.key = none ∧ (keyedState [] 0xFFFFFFFF).key = some keys ∧
    (keyedState [] 0xFFFFFFFF).len0.toNat > Config.ibufSize ∧
    (keyedState [] 80).key = some keys ∧ (keyedState [] 80).len0.toNat ≤ Config.ibufSize ∧
    (keyedState [] 0).len0.toNat ≤ Config.ibufSize :=
  ⟨rfl, rfl, tooLong, rfl, fits 80 (by decide), fits 0 (by decide)⟩

theorem witness_VernamEncCommand :
    (keyedState hello 5).key = some keys ∧ (keyedState hello 5).len0.toNat ≤ Config.ibufSize :=
  ⟨rfl, fits 5 (by decide)⟩

theorem witness_VernamDecCommand : (keyedState [] 31).len0.toNat < 32 ∧
    32 ≤ (keyedState [] 32).len0.toNat ∧ (keyedState [] 32).len0.toNat ≤ Config.ibufSize ∧
    (keyedState [] 0xFFFFFFFF).len0.toNat > Config.ibufSize ∧ (keyedState [] 32).key = some keys :=
  ⟨by decide, by decide, fits 32 (by decide), tooLong, rfl⟩

theorem witness_AesEncCommand :
    (keyedState hello 5).key = some keys ∧ (keyedState hello 5).len0.toNat ≤ Config.ibufSize :=
  ⟨rfl, fits 5 (by decide)⟩

theorem cbcD_A2 : cbcD keys.aes keys.iv ciphertextA2 = hello ++ List.replicate 11 11 := by
  decide +kernel

/-- A length of 0, a length that is no multiple of 16, valid padding (V-A6) and invalid padding (V-A9). -/
theorem witness_AesDecCommand :
    (keyedState [] 0).len0.toNat = 0 ∧ (keyedState [] 15).len0.toNat % 16 ≠ 0 ∧
    (∃ s : State, s.key = some keys ∧ s.len0.toNat = 16 ∧ s.len0.toNat ≤ Config.ibufSize ∧
      ∃ x p, x = cbcD keys.aes keys.iv ((List.range s.len0.toNat).map s.ibufByte) ∧
        p = (x.getD (s.len0.toNat - 1) 0).toNat ∧ 1 ≤ p ∧ p ≤ 16 ∧
        ∀ j, j < p → (x.getD (s.len0.toNat - 1 - j) 0).toNat = p) ∧
    (∃ s : State, s.key = some keys ∧ s.len0.toNat = 16 ∧ s.len0.toNat ≤ Config.ibufSize ∧
      ∃ x p, x = cbcD keys.aes keys.iv ((List.range s.len0.toNat).map s.ibufByte) ∧
        p = (x.getD (s.len0.toNat - 1) 0).toNat ∧
        ¬ (1 ≤ p ∧ p ≤ 16 ∧ ∀ j, j < p → (x.getD (s.len0.toNat - 1 - j) 0).toNat = p)) := by
  refine ⟨rfl, by decide, ⟨keyedState ciphertextA2 16, rfl, rfl, fits 16 (by decide), _, 11, rfl, ?_⟩,
    ⟨keyedState ciphertextA9 16, rfl, rfl, fits 16 (by decide), _, 0, rfl, ?_⟩⟩
  · rw [show (keyedState ciphertextA2 16).len0 = 16 from rfl,
      memRead_keyed ciphertextA2 16 rfl, cbcD_A2]
    decide
  · rw [show (keyedState ciphertextA9 16).len0 = 16 from rfl,
      memRead_keyed ciphertextA9 16 rfl, test_aesDec_bad_padding]
    decide

theorem witness_EncryptCommand :
    (keyedState hello 5).key = some keys ∧ (keyedState hello 5).len0.toNat ≤ Config.ibufSize :=
  ⟨rfl, fits 5 (by decide)⟩

/-- An AES error, an AES output that is too short (V-A6's), and one of exactly 32 bytes (V-A5's). -/
theorem witness_DecryptCommand :
    aesDecBytes keys ((List.range 15).map (keyedState [] 15).ibufByte) =
      .error .cipherIntegrityError ∧
    aesDecBytes keys ((List.range (16 : Word).toNat).map (keyedState ciphertextA2 16).ibufByte) =
      .ok hello ∧ hello.length < 32 ∧
    aesDecBytes keys ((List.range (48 : Word).toNat).map (keyedState ciphertextA5 48).ibufByte) =
      .ok (List.replicate 32 0) ∧ 32 ≤ (List.replicate 32 (0 : Byte)).length ∧
    (keyedState ciphertextA5 48).len0.toNat ≤ Config.ibufSize := by
  refine ⟨rfl, ?_, by decide, ?_, by decide, fits 48 (by decide)⟩
  · rw [memRead_keyed ciphertextA2 16 rfl, test_aesDec_bytes]
  · rw [memRead_keyed ciphertextA5 48 rfl, test_aesDec_bytes_three_blocks]

theorem witness_CiphertextLengths : (aesDecBytes keys ciphertextA2 = .ok hello ∧
      ciphertextA2.length = 16) ∧
    (aesDecBytes keys ciphertextA5 = .ok (List.replicate 32 0) ∧
      decryptBytes Config.ks keys ciphertextA5 = .ok []) :=
  ⟨⟨test_aesDec_bytes, rfl⟩, test_aesDec_bytes_three_blocks, test_decrypt_empty _⟩

/-- A command that draws nothing, one that fails its checks, one that draws, and LOAD_KEYS while keyed. -/
theorem witness_CommandsKeepOperandsAndKeys :
    (∃ t, exec .clear State.reset = .next t) ∧
    (∃ t, exec .encrypt State.reset = .next t ∧ t.err = true) ∧
    (∃ t, exec .encrypt (keyedState hello 5) = .next t ∧ t.err = false) ∧
    (∃ t, exec .loadKeys (keyedState [] 32) = .next t ∧ (keyedState [] 32).key ≠ none) := by
  refine ⟨⟨_, rfl⟩, ⟨_, rfl, rfl⟩, ?_, _, rfl, by decide⟩
  have hk := (State.keyedInput_eq_ok (keyedState hello 5) keys _).2 ⟨rfl, fits 5 (by decide), rfl⟩
  exact ⟨_, (by simp only [exec, execEncrypt, hk]; rfl), rfl⟩

theorem witness_EngineErrorChangesOnlyTheReport :
    (∃ t, exec .encrypt State.reset = .next t ∧ t.err = true) ∧
    (launchedWord 0x3).completes = true ∧ (∃ t, step (launchedWord 0x3) = .next t ∧ t.err = true) :=
  ⟨⟨_, rfl, rfl⟩, rfl, _, rfl, rfl⟩

/-- Two states that differ in OBUF, OUT_LEN, CMD, the flags and an IBUF byte past the operands; and for
ENCRYPT two states with the same next draw. -/
theorem witness_ResultDependsOnlyOnOperands :
    ∃ s s' : State, s ≠ s' ∧ s'.len0 = s.len0 ∧ s'.len1 = s.len1 ∧ s'.len2 = s.len2 ∧
      s'.key = s.key ∧ (∀ a, a < operandEnd .encrypt s → s'.ibufByte a = s.ibufByte a) ∧
      Config.trng s'.draws = Config.trng s.draws ∧
      (∃ t, exec .encrypt s = .next t) ∧ ∃ t', exec .encrypt s' = .next t' := by
  refine ⟨keyedState hello 5, { keyedState (hello ++ [0x21]) 5 with
    cmd := 0x40, busy := true, outLen := 3, obuf := [(0, 1)] }, by decide, rfl, rfl, rfl, rfl, ?_,
    rfl, ⟨_, rfl⟩, _, rfl⟩
  intro a ha
  have ha' : a < 5 := ha
  interval_cases a <;> rfl

theorem witness_KeyFreeCommandsIgnoreTheKeys :
    (Instr.clear = .clear ∨ Instr.clear = .keystream ∨ ∃ fn, Instr.clear = .combine fn) ∧
    ∃ fn, Instr.combine 0x6 = .combine fn := ⟨.inl rfl, 0x6, rfl⟩

theorem witness_KeysAreLockedUntilReset : (keyedState [] 0).key = some keys ∧
    (∃ t, step (keyedState [] 0) = .next t) ∧
    ∃ t, step { keyedState [] 0 with pending := [.reset] } = .next t := ⟨rfl, ⟨_, rfl⟩, _, rfl⟩

/-- The last register of the window, OUT_LEN while not BUSY, and a read while BUSY. -/
theorem witness_RegisterWindowReads :
    (0x3C < 0x40 ∧ 0x3C % 4 = 0 ∧ 0x3C ≠ 0x14) ∧
    (0x14 < 0x40 ∧ 0x14 % 4 = 0 ∧ State.reset.busy = false) ∧
    ((launchedWord 0x2).busy = true ∧ 0x18 ≠ 0x14) := by decide

theorem witness_ReadOnlyWritesAreIgnored : (0x04 % 4 = 0 ∧ 0x04 < 0x40) ∧
    (0x14 % 4 = 0 ∧ 0x14 < 0x40 ∧ 0x14 ≤ 0x14) ∧ (0x3C % 4 = 0 ∧ 0x20 ≤ 0x3C ∧ 0x3C < 0x40) ∧
    Config.obufSize - 1 < Config.obufSize := by
  refine ⟨by decide, by decide, by decide, ?_⟩
  unfold Config.obufSize
  omega

theorem witness_LenWritesStoreTheValue : State.reset.busy = false := rfl

theorem witness_OperandWritesWhileBusyFault : 0x10 ∈ [0x00, 0x08, 0x0C, 0x10] ∧
    Config.ibufSize - 1 < Config.ibufSize ∧ Config.ibufSize + 47 < Config.obufSize ∧
    (launchedWord 0x2).busy = true ∧
    State.reset.busy = false ∧ (0x3C % 4 = 0 ∧ 0x3C < 0x40 ∧ 0x14 ≤ 0x3C) := by
  refine ⟨by decide, ?_, Nat.lt_succ_self _, rfl, rfl, by decide⟩
  have := Config.ibufSize_ge
  omega

theorem witness_IbufWriteStoresTheByte : State.reset.busy = false ∧
    Memory.wf State.reset.ibuf = true ∧ Config.ibufSize - 1 < Config.ibufSize := by
  refine ⟨rfl, rfl, ?_⟩
  have := Config.ibufSize_ge
  omega

/-- A poll that goes on, while BUSY and after reset, and one that ends; and the two other reads. -/
theorem witness_HostReadsChangeNothing :
    (∃ t, hostStep .poll (launchedWord 0x2) = .next t) ∧
    ((∃ t, hostStep .poll State.reset = .next t) ∧ State.reset.done = false) ∧
    ((∃ t, hostStep .poll (State.reset.finish []) = .next t) ∧ (State.reset.finish []).done = true) ∧
    (∃ t, hostStep (.regRead 32 0x04) State.reset = .next t) ∧
    ∃ t, hostStep (.bufRead .ibuf 0) State.reset = .next t := by
  refine ⟨⟨_, rfl⟩, ⟨⟨_, rfl⟩, rfl⟩, ⟨⟨_, rfl⟩, rfl⟩, ⟨_, rfl⟩, State.reset.hostReadBuf .ibuf 0, ?_⟩
  have h := Config.ibufSize_ge
  simp [hostStep, bufAccessOk, Buffer.size, show 0 < Config.ibufSize by omega]

theorem witness_ReadsWhileBusy : (launchedWord 0x2).busy = true ∧
    (0x3C < 0x40 ∧ 0x3C % 4 = 0 ∧ 0x3C ≠ 0x14) ∧ Config.ibufSize - 1 < Config.ibufSize ∧
    Config.obufSize - 1 < Config.obufSize := by
  have h := Config.ibufSize_ge
  refine ⟨rfl, by decide, by omega, ?_⟩
  unfold Config.obufSize
  omega

theorem witness_ObufReadsReturnTheResult :
    State.reset.busy = false ∧ Config.ibufSize - 1 < Config.ibufSize ∧
    (∃ t, exec .clear State.reset = .next t) ∧ Config.obufSize - 1 < Config.obufSize := by
  have h := Config.ibufSize_ge
  exact ⟨rfl, by omega, ⟨_, rfl⟩, by unfold Config.obufSize; omega⟩

theorem witness_BusRegionsDoNotOverlap : 0x3F < regionSize .reg ∧
    Config.ibufSize - 1 < regionSize .ibuf ∧ Config.obufSize - 1 < regionSize .obuf ∧
    busAddress .reg 0x3F = busAddress .reg 0x3F := by
  have h := Config.ibufSize_ge
  refine ⟨by decide, ?_, ?_, rfl⟩
  · show Config.ibufSize - 1 < Config.ibufSize
    omega
  · show Config.obufSize - 1 < Config.obufSize
    unfold Config.obufSize
    omega

theorem witness_ResetStateValues : (0x20 ≤ 0x20 ∧ 0x20 < 0x40) ∧ (0x20 ≤ 0x3C ∧ 0x3C < 0x40) := by
  decide

/-- A state with a key, a result and a byte in each buffer meets the invariant and steps. -/
theorem witness_StepKeepsTheInvariant :
    ∃ s t : State, s.Inv ∧ step s = .next t ∧ s ≠ t := by
  refine ⟨{ keyedState [7] 0 with done := true, outLen := 1, obuf := [(0, 9)], pending := [.poll] },
    _, ⟨by decide, by decide, by decide, by decide, rfl, ?_, rfl, rfl, ?_, rfl⟩, rfl, by decide⟩
  · have := Config.ibufSize_ge
    simp [Memory.below, keyedState, loaded, Memory.storeList, Memory.store]
    omega
  · show (1#32).toNat ≤ Config.obufSize
    unfold Config.obufSize
    simp

theorem witness_BitOperatorLaws : (List.replicate 16 true).length % 8 = 0 ∧
    [true].length ≤ [false, true].length := by decide

theorem witness_KeystreamPrefix : 8 ≤ 12 ∧ 8 % 8 = 0 := by decide

theorem witness_CbcDecryptionUndoesEncryption : (List.replicate 32 (0 : Byte)).length % 16 = 0 := by
  decide

theorem witness_PaddingIsValidAndRemoved : (List.replicate 16 (0x10 : Byte)) ≠ [] ∧
    (List.replicate 16 (0x10 : Byte)).length % 16 = 0 ∧
    validlyPadded (List.replicate 16 0x10) = true := by decide

theorem witness_AesLayerRoundTrip : aesDecBytes keys ciphertextA2 = .ok hello := test_aesDec_bytes

/-- ENCRYPT of the empty plaintext, its 48 bytes copied into IBUF of the same machine. -/
theorem witness_EncryptThenDecryptCommands :
    ∃ s t s' : State, s.key = some keys ∧ s.len0.toNat ≤ Config.ibufSize ∧
      exec .encrypt s = .next t ∧ t.outLen.toNat ≤ Config.ibufSize ∧ s'.key = some keys ∧
      s'.len0 = t.outLen ∧ ∀ j, j < t.outLen.toNat → s'.ibufByte j = t.obufByte j := by
  let s := keyedState [] 0
  let out := encryptBytes Config.ks keys [] (Config.trng s.draws).toList
  let t := s.drawTrng.2.finish out
  have hl : out.length = 48 := by
    show (aesEncBytes keys _).length = 48
    rw [aesEncBytes_length, vernamEncBytes, List.length_append, Vector.length_toList]
    simp [vernamBody, combine, bitsOf, BitSeq.finiteBits]
  have hn : t.outLen.toNat = 48 := by
    show (BitVec.ofNat 32 out.length).toNat = 48
    rw [hl]
    rfl
  refine ⟨s, t, { s with ibuf := t.obuf, len0 := t.outLen }, rfl, fits 0 (by decide), rfl, ?_, rfl,
    rfl, ?_⟩
  · rw [hn]
    exact Nat.le_trans (by decide) Config.ibufSize_ge
  · intro j hj
    rw [hn] at hj
    have h := Memory.read?_storeList out [] 0 j rfl
    have ho : t.obuf = Memory.storeList [] 0 out := rfl
    have hj' : 0 ≤ j ∧ j < 0 + out.length := by omega
    simp only [State.ibufByte, State.obufByte, ho, h, hj', if_true, Nat.sub_zero, and_self]
    rw [List.getElem?_eq_getElem (by omega)]
    rfl

theorem witness_Utf8RoundTrip : utf8Decode [0xc3, 0xa4] = some ['ä'] := by decide

/-- A host whose one value is written `null`. -/
def nullCodec : JsonCodec Unit where
  stringify _ := ['n', 'u', 'l', 'l']
  parse _ := ()

/-- A host whose one text does not fit IBUF. -/
def longCodec : JsonCodec Unit where
  stringify _ := List.replicate (Config.ibufSize + 1) 'a'
  parse _ := ()

theorem longCodec_payload : Config.ibufSize < (encodePayload longCodec ()).length := by
  show Config.ibufSize < ((List.replicate (Config.ibufSize + 1) 'a').flatMap utf8EncodeChar).length
  have h : ∀ n, ((List.replicate n 'a').flatMap utf8EncodeChar).length = n := by
    intro n
    induction n with
    | zero => rfl
    | succ n ih => rw [List.replicate_succ, List.flatMap_cons, List.length_append, ih, Nat.add_comm]; rfl
  rw [h]
  exact Nat.lt_succ_self _

/-- R357 (b) and (d), a text and a ciphertext that do not fit, an engine error and a success. -/
theorem witness_WrapperPayloadsAndErrors : jsonValid (nullCodec.stringify ()) = true ∧ utf8Decode [0xff] = none ∧
    (utf8Decode hello = some ['h', 'e', 'l', 'l', 'o'] ∧
      jsonValid ['h', 'e', 'l', 'l', 'o'] = false) ∧
    (encodePayload longCodec ()).length > Config.ibufSize ∧
    (List.replicate (Config.ibufSize + 1) (0 : Byte)).length > Config.ibufSize ∧
    (State.reset.raise .notKeyed).err = true ∧ (State.reset.finish hello).err = false :=
  ⟨by decide, by decide, by decide, longCodec_payload,
    by rw [List.length_replicate]; exact Nat.lt_succ_self _, rfl, rfl⟩

/-- A host with the one value `null` and equality for deep equality, on a keyed LCE; the ciphertext has 48 bytes, so it fits. -/
theorem witness_JsonWrapperRoundTrip :
    (∃ deepEq : Unit → Unit → Prop, deepEq = Eq ∧ deepEq (nullCodec.parse (nullCodec.stringify ())) ()) ∧
    jsonValid (nullCodec.stringify ()) = true ∧ (encodePayload nullCodec ()).length ≤ Config.ibufSize ∧ (keyedState [] 0).key = some keys ∧
    (keyedState [] 0).busy = false ∧ Memory.wf (keyedState [] 0).ibuf = true ∧
    16 * (((encodePayload nullCodec ()).length + 32) / 16 + 1) ≤ Config.ibufSize := by
  have hl : (encodePayload nullCodec ()).length = 4 := by decide
  have h := Config.ibufSize_ge
  rw [hl]
  exact ⟨⟨Eq, rfl, rfl⟩, by decide, by omega, rfl, rfl, rfl, by omega⟩

end Sys2Proof.Tests
end

section
/-! SUPPORT. The lengths of what the commands compute. -/

namespace Sys2Proof.Machine

/-! ### Bit sequences -/

@[simp] theorem bitsOf_length (x : List Byte) : (bitsOf x).length = 8 * x.length := by
  induction x with
  | nil => rfl
  | cons b x ih => simp [bitsOf_cons, ih]; omega

/-- Whole bytes leave no tail (R185). -/
@[simp] theorem outBytes_mul_eight (tail : Config.TailPolicy) (n : Nat) :
    outBytes tail (8 * n) = n := by
  cases tail <;> simp only [outBytes] <;> omega

/-- Eight more bits make one more byte (R184). -/
theorem outBytes_add_eight (tail : Config.TailPolicy) (n : Nat) :
    outBytes tail (n + 8) = outBytes tail n + 1 := by
  cases tail <;> simp only [outBytes] <;> omega

/-- `len(bytesOf(s))` is `outBytes(len(s))` (R185). -/
@[simp] theorem bytesOf_length (tail : Config.TailPolicy) (s : List Bool) :
    (bytesOf tail s).length = outBytes tail s.length := by
  match s with
  | s0 :: s1 :: s2 :: s3 :: s4 :: s5 :: s6 :: s7 :: rest =>
    rw [bytesOf_cons8, List.length_cons, bytesOf_length tail rest, ← outBytes_add_eight]
    rfl
  | [] => cases tail <;> simp [outBytes]
  | [_] | [_, _] | [_, _, _] | [_, _, _, _] | [_, _, _, _, _] | [_, _, _, _, _, _]
  | [_, _, _, _, _, _, _] =>
    rw [bytesOf_short tail _ (by simp) (by simp)]
    cases tail <;> simp [outBytes]

/-- A finite and an infinite sequence combine to the length of the finite one (R182). -/
@[simp] theorem combine_finite_stream_length (x : List Bool) (f : Nat → Bool)
    (op : Bool → Bool → Bool) :
    (combine (.finite x) (.stream f) op).finiteBits.length = x.length := by
  simp [combine, BitSeq.finiteBits]

/-- Two finite sequences combine to the length of the shorter one (R182). -/
@[simp] theorem combine_finite_finite_length (x y : List Bool) (op : Bool → Bool → Bool) :
    (combine (.finite x) (.finite y) op).finiteBits.length = min x.length y.length := by
  simp [combine, BitSeq.finiteBits]

/-! ### The commands' outputs -/

/-- The output of COMBINE is as long as its shorter operand (R187). -/
@[simp] theorem combineBytes_length (fn : BitVec 4) (a b : List Byte) :
    (combineBytes fn a b).length = min a.length b.length := by
  have h : min (8 * a.length) (8 * b.length) = 8 * min a.length b.length := by omega
  simp [combineBytes, h]

@[simp] theorem keystreamBytes_length (ks : List Byte → Nat → Bool) (tail : Config.TailPolicy)
    (seed : List Byte) (n : Nat) : (keystreamBytes ks tail seed n).length = outBytes tail n := by
  simp [keystreamBytes]

@[simp] theorem vernamBody_length (ks : List Byte → Nat → Bool) (seed p : List Byte) :
    (vernamBody ks seed p).length = p.length := by
  simp [vernamBody]

@[simp] theorem vernamEncBytes_length (ks : List Byte → Nat → Bool) (p vk k : List Byte) :
    (vernamEncBytes ks p vk k).length = k.length + p.length := by
  simp [vernamEncBytes]

/-- A Vernam plaintext is 32 bytes shorter than its ciphertext (R242). -/
theorem vernamDecBytes_length {ks : List Byte → Nat → Bool} {c vk out : List Byte}
    (h : vernamDecBytes ks c vk = .ok out) : out.length + 32 = c.length := by
  unfold vernamDecBytes at h
  split at h
  · cases h
  · cases h
    simp only [vernamBody_length, List.length_drop]
    omega

/-- An AES plaintext is shorter than its ciphertext by the padding (R282, R286). -/
theorem aesDecBytes_length {km : KeyMaterial} {c v : List Byte} (h : aesDecBytes km c = .ok v) :
    ∃ p, 1 ≤ p ∧ p ≤ 16 ∧ v.length + p = c.length := by
  unfold aesDecBytes at h
  split at h
  · cases h
  · rename_i hlen
    split at h
    · rename_i hpad
      cases h
      simp only [validlyPadded, Bool.and_eq_true, decide_eq_true_eq] at hpad
      obtain ⟨⟨hlo, hhi⟩, -⟩ := hpad
      refine ⟨_, hlo, hhi, ?_⟩
      simp only [pkcsUnpad, List.length_take, cbcD_length]
      omega
    · cases h

/-- The output of ENCRYPT (R326). -/
@[simp] theorem encryptBytes_length (ks : List Byte → Nat → Bool) (km : KeyMaterial)
    (p : List Byte) (k : Vector Byte 32) :
    (encryptBytes ks km p k.toList).length = 16 * ((p.length + 32) / 16 + 1) := by
  simp [encryptBytes, Nat.add_comm]

/-- A plaintext of DECRYPT is shorter than its ciphertext by the per-message key and the padding
(R326). -/
theorem decryptBytes_length {ks : List Byte → Nat → Bool} {km : KeyMaterial} {c out : List Byte}
    (h : decryptBytes ks km c = .ok out) :
    ∃ p, 1 ≤ p ∧ p ≤ 16 ∧ out.length + 32 + p = c.length := by
  unfold decryptBytes at h
  cases hv : aesDecBytes km c with
  | error e => simp [hv] at h
  | ok v =>
    simp only [hv] at h
    obtain ⟨p, hlo, hhi, hlen⟩ := aesDecBytes_length hv
    exact ⟨p, hlo, hhi, by rw [vernamDecBytes_length h, hlen]⟩

end Sys2Proof.Machine
end

section
/-! SUPPORT. The completion of a command as two functions of its state: what `Execute` answers (R131) and
the state the answer is committed in. Every fact about all commands at once is read off them. -/

namespace Sys2Proof.Machine

/-- `Key Material` as LOAD_KEYS takes it from IBUF (R161). -/
def State.ibufKeys (s : State) : KeyMaterial where
  aes := s.memReadVector 0 32
  iv := s.memReadVector 32 16
  vernam := s.memReadVector 48 32

/-- What `Execute` answers (R131): the output of the command, or the error of the first check that
fails. -/
def State.answer (s : State) : Instr → Answer
  | .loadKeys => s.keysInput.map fun _ => []
  | .clear => .ok []
  | .keystream => s.keystreamInput.map fun x =>
      keystreamBytes Config.ks Config.bytesOfTail x.1 x.2
  | .combine fn => s.combineInput.map fun x => combineBytes fn x.1 x.2
  | .vernamEnc => s.keyedInput.map fun x =>
      vernamEncBytes Config.ks x.2 x.1.vernam.toList (Config.trng s.draws).toList
  | .vernamDec => s.keyedInput.bind fun x => vernamDecBytes Config.ks x.2 x.1.vernam.toList
  | .aesEnc => s.keyedInput.map fun x => aesEncBytes x.1 x.2
  | .aesDec => s.keyedInput.bind fun x => aesDecBytes x.1 x.2
  | .encrypt => s.keyedInput.map fun x =>
      encryptBytes Config.ks x.1 x.2 (Config.trng s.draws).toList
  | .decrypt => s.keyedInput.bind fun x => decryptBytes Config.ks x.1 x.2

/-- The state in which a successful command finishes: LOAD_KEYS has filled the key store (R161), and the
two encryptions have taken their TRNG draw (R132). -/
def State.prepared (s : State) : Instr → State
  | .loadKeys => s.loadKeyStore s.ibufKeys
  | .vernamEnc => s.drawTrng.2
  | .encrypt => s.drawTrng.2
  | _ => s

/-- The completion of the command `i` (R131). -/
def State.completion (s : State) (i : Instr) : State :=
  match s.answer i with
  | .error e => s.raise e
  | .ok out => (s.prepared i).finish out

theorem State.completion_of_error {s : State} {i : Instr} {e : EngineError}
    (h : s.answer i = .error e) : s.completion i = s.raise e := by
  simp only [State.completion, h]

theorem State.completion_of_ok {s : State} {i : Instr} {out : List Byte}
    (h : s.answer i = .ok out) : s.completion i = (s.prepared i).finish out := by
  simp only [State.completion, h]

/-! ### The meaning of every command is its completion -/

/-- LOAD_KEYS takes no other keys than those in IBUF (R161). -/
theorem State.keysInput_eq_ok {s : State} {km : KeyMaterial} (h : s.keysInput = .ok km) :
    s.key = none ∧ km = s.ibufKeys := by
  unfold State.keysInput State.requireNoKeys at h
  cases hk : s.key with
  | some _ => simp [hk] at h
  | none =>
    simp only [hk] at h
    split at h
    · cases h
    · cases h
      exact ⟨rfl, rfl⟩

/-- The Vernam stage commits the answer of `VernamDec`: K_MSG does not survive it (R48). -/
theorem State.finishVernamDec_eq_commit (s : State) (c vk : List Byte) :
    s.finishVernamDec c vk = s.commit (vernamDecBytes Config.ks c vk) := by
  unfold State.finishVernamDec State.commit
  cases vernamDecBytes Config.ks c vk <;> rfl

/-- Every command ends at once, in its completion. -/
theorem exec_eq_completion (i : Instr) (s : State) : exec i s = .next (s.completion i) := by
  cases i with
  | loadKeys =>
    simp only [exec, execLoadKeys, State.completion, State.answer]
    cases h : s.keysInput with
    | error e => rfl
    | ok km =>
      obtain ⟨-, rfl⟩ := State.keysInput_eq_ok h
      rfl
  | clear => rfl
  | keystream =>
    simp only [exec, execKeystream, State.completion, State.answer]
    cases s.keystreamInput <;> rfl
  | combine fn =>
    simp only [exec, execCombine, State.completion, State.answer]
    cases s.combineInput <;> rfl
  | vernamEnc =>
    simp only [exec, execVernamEnc, State.completion, State.answer]
    cases s.keyedInput <;> rfl
  | vernamDec =>
    simp only [exec, execVernamDec, State.completion, State.answer, State.finishVernamDec_eq_commit]
    cases s.keyedInput with
    | error e => rfl
    | ok x =>
      dsimp only [Except.bind]
      cases vernamDecBytes Config.ks x.2 x.1.vernam.toList <;> rfl
  | aesEnc =>
    simp only [exec, execAesEnc, State.completion, State.answer]
    cases s.keyedInput <;> rfl
  | aesDec =>
    simp only [exec, execAesDec, State.completion, State.answer]
    cases s.keyedInput with
    | error e => rfl
    | ok x =>
      dsimp only [Except.bind]
      cases aesDecBytes x.1 x.2 <;> rfl
  | encrypt =>
    simp only [exec, execEncrypt, State.completion, State.answer]
    cases s.keyedInput <;> rfl
  | decrypt =>
    simp only [exec, execDecrypt, State.completion, State.answer, State.finishVernamDec_eq_commit,
      decryptBytes]
    cases s.keyedInput with
    | error e => rfl
    | ok x =>
      dsimp only [Except.bind]
      cases aesDecBytes x.1 x.2 with
      | error e => rfl
      | ok v =>
        dsimp only
        cases vernamDecBytes Config.ks v x.1.vernam.toList <;> rfl

/-- How a command that ends in `t` has ended: with an engine error, or with an output. -/
theorem exec_next_iff {i : Instr} {s t : State} : exec i s = .next t ↔
    (∃ e, s.answer i = .error e ∧ t = s.raise e) ∨
      (∃ out, s.answer i = .ok out ∧ t = (s.prepared i).finish out) := by
  rw [exec_eq_completion, Host.Outcome.next.injEq]
  cases h : s.answer i with
  | error e => simp [State.completion_of_error h, eq_comm]
  | ok out => simp [State.completion_of_ok h, eq_comm]

end Sys2Proof.Machine
end

section
/-! SUPPORT. What every command leaves unchanged, and what its answer depends on. -/

namespace Sys2Proof.Machine

/-! ### What a command leaves unchanged (R32, R45) -/

theorem State.prepared_same (s : State) (i : Instr) : SameForCommand s (s.prepared i) := by
  cases i <;> exact ⟨rfl, rfl, rfl, rfl, rfl, rfl, rfl, rfl⟩

theorem State.prepared_key (s : State) {i : Instr} (h : i ≠ .loadKeys) :
    (s.prepared i).key = s.key := by
  cases i with
  | loadKeys => exact absurd rfl h
  | _ => rfl

/-- Only VERNAM_ENC and ENCRYPT take a TRNG draw. -/
theorem State.prepared_draws (s : State) (i : Instr) :
    (s.prepared i).draws = s.draws + if i = .vernamEnc ∨ i = .encrypt then 1 else 0 := by
  cases i <;> rfl

theorem OperandsKept.raise (s : State) (e : EngineError) : OperandsKept s (s.raise e) :=
  ⟨rfl, rfl, rfl, rfl, fun _ => rfl, rfl, rfl⟩

theorem SameForCommand.operandsKept_finish {s s' : State} (h : SameForCommand s s')
    (out : List Byte) : OperandsKept s (s'.finish out) :=
  ⟨h.cmd, h.len0, h.len1, h.len2, State.ibufByte_congr h.ibuf h.ibufDraw, h.pending, h.reads⟩

/-- R32: a command changes neither its operands nor anything of the host's. -/
theorem exec_operandsKept {i : Instr} {s t : State} (h : exec i s = .next t) : OperandsKept s t := by
  obtain ⟨e, -, rfl⟩ | ⟨out, -, rfl⟩ := exec_next_iff.1 h
  · exact .raise s e
  · exact (s.prepared_same i).operandsKept_finish out

/-- LOAD_KEYS succeeds on an absent key store only (R161, R406). -/
theorem State.key_eq_none_of_answer_loadKeys {s : State} {out : List Byte}
    (h : s.answer .loadKeys = .ok out) : s.key = none := by
  cases hk : s.keysInput with
  | error e => simp [State.answer, hk, Except.map] at h
  | ok km => exact (State.keysInput_eq_ok hk).1

/-- R45: a command other than LOAD_KEYS keeps the key store, and every command keeps a loaded one. -/
theorem exec_key {i : Instr} {s t : State} (h : exec i s = .next t)
    (hi : i ≠ .loadKeys ∨ s.key ≠ none) : t.key = s.key := by
  obtain ⟨e, -, rfl⟩ | ⟨out, hout, rfl⟩ := exec_next_iff.1 h
  · rfl
  · refine s.prepared_key fun hload => ?_
    subst hload
    exact hi.elim (· rfl) (· (State.key_eq_none_of_answer_loadKeys hout))

/-- A completion takes one draw, and a successful VERNAM_ENC or ENCRYPT the TRNG's too. -/
theorem exec_draws {i : Instr} {s t : State} (h : exec i s = .next t) :
    t.draws = s.draws + if t.err = false ∧ (i = .vernamEnc ∨ i = .encrypt) then 2 else 1 := by
  obtain ⟨e, -, rfl⟩ | ⟨out, -, rfl⟩ := exec_next_iff.1 h
  · simp
  · rw [State.finish_draws, State.prepared_draws, State.finish_err]
    by_cases hi : i = .vernamEnc ∨ i = .encrypt <;> simp [hi]

/-- Settles O22: whichever way the command ends, what it changed is known. -/
theorem commandsKeepOperandsAndKeys : Obligations.CommandsKeepOperandsAndKeys :=
  fun _ _ _ h => ⟨exec_operandsKept h, exec_key h, exec_draws h⟩

/-! ### What an answer depends on (R35) -/

/-- The states `s` and `s'` agree on everything the command `i` reads when its checks pass (R35). -/
structure SameOperands (i : Instr) (s s' : State) : Prop where
  len0 : s'.len0 = s.len0
  len1 : s'.len1 = s.len1
  len2 : s'.len2 = s.len2
  key : s'.key = s.key
  ibuf : ∀ a, a < operandEnd i s → s'.ibufByte a = s.ibufByte a
  trng : (i = .vernamEnc ∨ i = .encrypt) → Config.trng s'.draws = Config.trng s.draws

theorem State.memRead_congr {s s' : State} {off n : Nat}
    (h : ∀ a, a < off + n → s'.ibufByte a = s.ibufByte a) : s'.memRead off n = s.memRead off n :=
  List.map_congr_left fun i hi => h (off + i) (Nat.add_lt_add_left (List.mem_range.1 hi) off)

theorem State.memReadVector_congr {s s' : State} {off n : Nat}
    (h : ∀ a, a < off + n → s'.ibufByte a = s.ibufByte a) :
    s'.memReadVector off n = s.memReadVector off n := by
  simp only [State.memReadVector, State.memRead_congr h]

namespace SameOperands

variable {i : Instr} {s s' : State}

theorem ibufKeys (h : SameOperands .loadKeys s s') : s'.ibufKeys = s.ibufKeys := by
  have hread : ∀ off n, off + n ≤ 80 → s'.memReadVector off n = s.memReadVector off n :=
    fun off n hn => State.memReadVector_congr fun a ha => h.ibuf a (Nat.lt_of_lt_of_le ha hn)
  simp only [State.ibufKeys, hread 0 32 (by decide), hread 32 16 (by decide),
    hread 48 32 (by decide)]

theorem n0 (h : SameOperands i s s') : s'.n0 = s.n0 := congrArg BitVec.toNat h.len0

theorem n1 (h : SameOperands i s s') : s'.n1 = s.n1 := congrArg BitVec.toNat h.len1

theorem n2 (h : SameOperands i s s') : s'.n2 = s.n2 := congrArg BitVec.toNat h.len2

theorem keysInput (h : SameOperands .loadKeys s s') : s'.keysInput = s.keysInput := by
  have hkeys := h.ibufKeys
  simp only [State.ibufKeys] at hkeys
  simp only [State.keysInput, State.requireNoKeys, h.n0, h.n1, h.n2, h.key, hkeys]

/-- The commands whose first operand is `IBUF[0..LEN0)` read it alike. -/
theorem memRead_n0 (h : SameOperands i s s') (hi : s.n0 ≤ operandEnd i s) :
    s'.memRead 0 s.n0 = s.memRead 0 s.n0 :=
  State.memRead_congr fun a ha => h.ibuf a (by omega)

theorem keystreamInput (h : SameOperands .keystream s s') :
    s'.keystreamInput = s.keystreamInput := by
  simp only [State.keystreamInput, h.memRead_n0 le_rfl, h.n0, h.n1]

theorem combineInput {fn : BitVec 4} (h : SameOperands (.combine fn) s s') :
    s'.combineInput = s.combineInput := by
  have hB : s'.memRead s.n0 s.n1 = s.memRead s.n0 s.n1 := State.memRead_congr h.ibuf
  simp only [State.combineInput, h.memRead_n0 (Nat.le_add_right _ _), h.n0, h.n1, hB]

theorem keyedInput (h : SameOperands i s s') (hi : s.n0 ≤ operandEnd i s) :
    s'.keyedInput = s.keyedInput := by
  simp only [State.keyedInput, State.requireKeys, State.readInput, h.memRead_n0 hi, h.n0, h.key]

/-- The answer of a command is a function of its operands. -/
theorem answer (h : SameOperands i s s') : s'.answer i = s.answer i := by
  cases i with
  | loadKeys => simp only [State.answer, h.keysInput]
  | clear => rfl
  | keystream => simp only [State.answer, h.keystreamInput]
  | combine fn => simp only [State.answer, h.combineInput]
  | vernamEnc => simp only [State.answer, h.keyedInput le_rfl, h.trng (.inl rfl)]
  | vernamDec => simp only [State.answer, h.keyedInput le_rfl]
  | aesEnc => simp only [State.answer, h.keyedInput le_rfl]
  | aesDec => simp only [State.answer, h.keyedInput le_rfl]
  | encrypt => simp only [State.answer, h.keyedInput le_rfl, h.trng (.inr rfl)]
  | decrypt => simp only [State.answer, h.keyedInput le_rfl]

theorem prepared_key (h : SameOperands i s s') : (s'.prepared i).key = (s.prepared i).key := by
  cases i with
  | loadKeys => exact congrArg some h.ibufKeys
  | _ => exact h.key

end SameOperands

/-- The OBUF bytes inside the output are the output's, whatever state the command finished in. -/
theorem State.finish_obufByte_of_lt (s : State) {out : List Byte} {j : Nat} (h : j < out.length) :
    (s.finish out).obufByte j = out[j] := by
  rw [State.finish_obufByte, List.getElem?_eq_getElem h]
  rfl

/-- OUT_LEN never exceeds the length of the output (R41). -/
theorem State.finish_outLen_toNat_le (s : State) (out : List Byte) :
    (s.finish out).outLen.toNat ≤ out.length := by
  rw [State.finish_outLen, BitVec.toNat_ofNat]
  exact Nat.mod_le _ _

/-- Settles O24: equal operands give equal answers, and an answer fixes the result. -/
theorem resultDependsOnlyOnOperands : Obligations.ResultDependsOnlyOnOperands := by
  intro i s s' t t' hlen0 hlen1 hlen2 hkey hibuf htrng ht ht'
  have hsame : SameOperands i s s' := ⟨hlen0, hlen1, hlen2, hkey, hibuf, htrng⟩
  rw [exec_eq_completion, Host.Outcome.next.injEq] at ht ht'
  subst ht ht'
  cases hans : s.answer i with
  | error e =>
    rw [State.completion_of_error hans, State.completion_of_error (hsame.answer.trans hans)]
    exact ⟨rfl, rfl, rfl, hkey, fun j hj => absurd hj (Nat.not_lt_zero j)⟩
  | ok out =>
    rw [State.completion_of_ok hans, State.completion_of_ok (hsame.answer.trans hans)]
    refine ⟨rfl, rfl, rfl, hsame.prepared_key, fun j hj => ?_⟩
    have hj' : j < out.length := Nat.lt_of_lt_of_le hj (State.finish_outLen_toNat_le _ out)
    rw [State.finish_obufByte_of_lt _ hj', State.finish_obufByte_of_lt _ hj']

end Sys2Proof.Machine
end

section
/-! SUPPORT. The invariant of the LCE's state, kept by every update a step is made of. -/

namespace Sys2Proof.Machine

/-! ### The result of a command fits OBUF (R103) -/

theorem Config.obufSize_lt : Config.obufSize < 2 ^ 32 := by
  have h := Config.ibufSize_le
  unfold Config.obufSize
  omega

theorem State.keyedInput_length_le {s : State} {x : KeyMaterial × List Byte}
    (h : s.keyedInput = .ok x) : x.2.length ≤ Config.ibufSize := by
  obtain ⟨-, hn, hx⟩ := (s.keyedInput_eq_ok x.1 x.2).1 h
  rw [hx, State.memRead_length]
  exact hn

theorem State.combineInput_length_le {s : State} {x : List Byte × List Byte}
    (h : s.combineInput = .ok x) : x.1.length + x.2.length ≤ Config.ibufSize := by
  unfold State.combineInput at h
  split at h
  · cases h
  · cases h
    simp only [State.memRead_length]
    omega

theorem State.keystreamInput_outBytes_le {s : State} {x : List Byte × Nat}
    (h : s.keystreamInput = .ok x) : outBytes Config.bytesOfTail x.2 ≤ Config.obufSize := by
  unfold State.keystreamInput at h
  split at h
  · cases h
  · rename_i hpass
    cases h
    exact Nat.le_of_not_lt (not_or.1 hpass).2

/-- An answer computed from checked operands comes of operands that passed the check; here and below for
an answer that is an output, and one that may be an error itself. -/
theorem exceptMap_eq_ok {α : Type} {c : Except EngineError α} {f : α → List Byte} {out : List Byte}
    (h : c.map f = .ok out) : ∃ x, c = .ok x ∧ out = f x := by
  cases c with
  | error e => cases h
  | ok x => cases h; exact ⟨x, rfl, rfl⟩

theorem exceptBind_eq_ok {α : Type} {c : Except EngineError α} {f : α → Answer} {out : List Byte}
    (h : c.bind f = .ok out) : ∃ x, c = .ok x ∧ f x = .ok out := by
  cases c with
  | error e => cases h
  | ok x => exact ⟨x, rfl, h⟩

/-- R103: the output of every command fits OBUF. -/
theorem State.answer_length_le {s : State} {i : Instr} {out : List Byte}
    (h : s.answer i = .ok out) : out.length ≤ Config.obufSize := by
  have hsize : Config.obufSize = Config.ibufSize + 48 := rfl
  cases i with
  | loadKeys =>
    obtain ⟨x, -, rfl⟩ := exceptMap_eq_ok h
    exact Nat.zero_le _
  | clear =>
    cases h
    exact Nat.zero_le _
  | keystream =>
    obtain ⟨x, hx, rfl⟩ := exceptMap_eq_ok h
    rw [keystreamBytes_length]
    exact State.keystreamInput_outBytes_le hx
  | combine fn =>
    obtain ⟨x, hx, rfl⟩ := exceptMap_eq_ok h
    have := State.combineInput_length_le hx
    rw [combineBytes_length]
    omega
  | vernamEnc =>
    obtain ⟨x, hx, rfl⟩ := exceptMap_eq_ok h
    have := State.keyedInput_length_le hx
    rw [vernamEncBytes_length, Vector.length_toList]
    omega
  | vernamDec =>
    obtain ⟨x, hx, hout⟩ := exceptBind_eq_ok h
    have := State.keyedInput_length_le hx
    have := vernamDecBytes_length hout
    omega
  | aesEnc =>
    obtain ⟨x, hx, rfl⟩ := exceptMap_eq_ok h
    have := State.keyedInput_length_le hx
    rw [aesEncBytes_length]
    omega
  | aesDec =>
    obtain ⟨x, hx, hout⟩ := exceptBind_eq_ok h
    have := State.keyedInput_length_le hx
    obtain ⟨p, -, -, hp⟩ := aesDecBytes_length hout
    omega
  | encrypt =>
    obtain ⟨x, hx, rfl⟩ := exceptMap_eq_ok h
    have := State.keyedInput_length_le hx
    rw [encryptBytes_length]
    omega
  | decrypt =>
    obtain ⟨x, hx, hout⟩ := exceptBind_eq_ok h
    have := State.keyedInput_length_le hx
    obtain ⟨p, -, -, hp⟩ := decryptBytes_length hout
    omega

/-- A result that fits OBUF has its length in OUT_LEN (R41). -/
theorem State.finish_outLen_toNat (s : State) {out : List Byte}
    (h : out.length ≤ Config.obufSize) : (s.finish out).outLen.toNat = out.length := by
  rw [State.finish_outLen, BitVec.toNat_ofNat]
  exact Nat.mod_eq_of_lt (Nat.lt_of_le_of_lt h Config.obufSize_lt)

/-! ### The updates keep the invariant -/

theorem EngineError.code_ne_zero (e : EngineError) : e.code ≠ 0 := by cases e <;> decide

theorem EngineError.code_mem_definedCodes (e : EngineError) : e.code ∈ definedCodes := by
  cases e <;> decide

theorem zero_mem_definedCodes : (0 : Byte) ∈ definedCodes := List.mem_cons_self

namespace State.Inv

variable {s : State}

theorem reset : State.reset.Inv where
  busy_done := by decide
  err_done := by decide
  errCode_err := by decide
  errCode_defined := by decide
  ibuf_wf := rfl
  ibuf_below := rfl
  obuf_wf := rfl
  obuf_below := rfl
  outLen_le := Nat.zero_le _
  kMsg_none := rfl

/-- What is the host's, the operand lengths and the counters are not the invariant's. -/
theorem withPending (h : s.Inv) (pending : List HostOp) (delay : Nat) :
    State.Inv { s with pending := pending, delay := delay } := { h with }

theorem withLen0 (h : s.Inv) (v : Word) : State.Inv { s with len0 := v } := { h with }

theorem withLen1 (h : s.Inv) (v : Word) : State.Inv { s with len1 := v } := { h with }

theorem withLen2 (h : s.Inv) (v : Word) : State.Inv { s with len2 := v } := { h with }

theorem observe (h : s.Inv) (r : HostRead) : (s.observe r).Inv := { h with }

theorem countDraw (h : s.Inv) : s.countDraw.Inv := { h with }

theorem resetInput : s.resetInput.Inv := { reset with }

theorem launch (h : s.Inv) (w : Word) : (s.launch w).Inv where
  busy_done := by simp [State.launch]
  err_done := by simp [State.launch]
  errCode_err := by simp [State.launch]
  errCode_defined := zero_mem_definedCodes
  ibuf_wf := h.ibuf_wf
  ibuf_below := h.ibuf_below
  obuf_wf := h.obuf_wf
  obuf_below := h.obuf_below
  outLen_le := h.outLen_le
  kMsg_none := h.kMsg_none

theorem setIbuf (h : s.Inv) {off : Nat} (v : Byte) (hoff : off < Config.ibufSize) :
    (s.setIbuf off v).Inv :=
  { h with
    ibuf_wf := State.setIbuf_wf s off v h.ibuf_wf
    ibuf_below := Memory.below_store _ _ _ _ h.ibuf_below hoff }

theorem raise (h : s.Inv) (e : EngineError) : (s.raise e).Inv where
  busy_done := by simp
  err_done := fun _ => rfl
  errCode_err := iff_of_true e.code_ne_zero rfl
  errCode_defined := e.code_mem_definedCodes
  ibuf_wf := h.ibuf_wf
  ibuf_below := h.ibuf_below
  obuf_wf := rfl
  obuf_below := rfl
  outLen_le := Nat.zero_le _
  kMsg_none := rfl

/-- A command may leave K_MSG set, the completion discards it (R48). -/
theorem finish (h : s.Inv) {s' : State} (hs : SameForCommand s s') {out : List Byte}
    (hout : out.length ≤ Config.obufSize) : (s'.finish out).Inv where
  busy_done := by simp
  err_done := fun _ => rfl
  errCode_err := by simp
  errCode_defined := zero_mem_definedCodes
  ibuf_wf := hs.ibuf ▸ h.ibuf_wf
  ibuf_below := hs.ibuf ▸ h.ibuf_below
  obuf_wf := Memory.wf_storeList _ _ _ rfl
  obuf_below := by
    rw [State.finish_outLen_toNat s' hout]
    exact Memory.below_storeList _ _ _ _ rfl (Nat.zero_add _).le
  outLen_le := by rwa [State.finish_outLen_toNat s' hout]
  kMsg_none := rfl

/-! ### The steps keep the invariant -/

theorem exec (h : s.Inv) {i : Instr} {t : State} (ht : Machine.exec i s = .next t) : t.Inv := by
  obtain ⟨e, -, rfl⟩ | ⟨out, hout, rfl⟩ := exec_next_iff.1 ht
  · exact h.raise e
  · exact h.finish (s.prepared_same i) (State.answer_length_le hout)

theorem completionStep (h : s.Inv) {t : State} (ht : Machine.completionStep s = .next t) :
    t.Inv := by
  obtain ⟨i, -, hi⟩ | ⟨e, -, he⟩ := completionStep_cases s
  · exact h.exec (hi ▸ ht)
  · cases he.symm.trans ht
    exact h.raise _

theorem hostStep (h : s.Inv) {op : HostOp} {t : State} (ht : Machine.hostStep op s = .next t) :
    t.Inv := by
  obtain rfl | ⟨-, w, rfl⟩ | ⟨-, v, rfl | rfl | rfl⟩ | ⟨-, off, v, hoff, rfl⟩ | ⟨r, rfl⟩ |
    ⟨-, r, rfl⟩ | ⟨-, r, rfl⟩ | ⟨-, rfl⟩ := hostStep_cases ht
  · exact h
  · exact h.launch w
  · exact h.withLen0 v
  · exact h.withLen1 v
  · exact h.withLen2 v
  · exact h.setIbuf v hoff
  · exact h.observe r
  · exact (h.observe r).countDraw
  · exact (h.observe r).withPending _ _
  · exact resetInput

end State.Inv

/-- Settles O42: the host's accesses are not the invariant's. -/
theorem resetMeetsTheInvariant : Obligations.ResetMeetsTheInvariant :=
  fun ops => State.Inv.reset.withPending ops _

/-- Settles O43: a step is a completion, a host access or waiting, and each keeps the invariant. -/
theorem stepKeepsTheInvariant : Obligations.StepKeepsTheInvariant := by
  intro s t hinv hst
  obtain ⟨-, hstep⟩ | ⟨-, op, rest, -, hstep⟩ | ⟨-, -, hstep⟩ := step_cases s
  · exact hinv.completionStep (hstep ▸ hst)
  · exact (hinv.withPending rest _).hostStep (hstep ▸ hst)
  · cases hstep.symm.trans hst
    exact hinv

/-! ### Loaded keys -/

/-- A completion keeps a loaded key store (R45). -/
theorem completionStep_key {s t : State} (h : completionStep s = .next t) (hk : s.key ≠ none) :
    t.key = s.key := by
  obtain ⟨i, -, hi⟩ | ⟨e, -, he⟩ := completionStep_cases s
  · exact exec_key (hi ▸ h) (.inr hk)
  · cases he.symm.trans h
    rfl

/-- A host access keeps the key store, but for a reset, which clears it (R45, R453). -/
theorem hostStep_key {op : HostOp} {s t : State} (h : hostStep op s = .next t) :
    t.key = s.key ∨ (t.key = none ∧ op = .reset) := by
  obtain rfl | ⟨-, w, rfl⟩ | ⟨-, v, rfl | rfl | rfl⟩ | ⟨-, off, v, hoff, rfl⟩ | ⟨r, rfl⟩ |
    ⟨-, r, rfl⟩ | ⟨-, r, rfl⟩ | ⟨hop, rfl⟩ := hostStep_cases h
  case inr.inr.inr.inr.inr.inr.inr => exact .inr ⟨rfl, hop⟩
  all_goals exact .inl rfl

/-- Settles O26: only the reset among the host's accesses, and no command, touches loaded keys. -/
theorem keysAreLockedUntilReset : Obligations.KeysAreLockedUntilReset := by
  intro s t km hkey hst
  obtain ⟨-, hstep⟩ | ⟨hc, op, rest, hp, hstep⟩ | ⟨-, -, hstep⟩ := step_cases s
  · exact .inl ((completionStep_key (hstep ▸ hst) (by simp [hkey])).trans hkey)
  · obtain hkept | ⟨hnone, rfl⟩ := hostStep_key (hstep ▸ hst)
    · exact .inl (hkept.trans hkey)
    · exact .inr ⟨hnone, hc, rest, hp⟩
  · cases hstep.symm.trans hst
    exact .inl hkey

end Sys2Proof.Machine
end

section
/-! SUPPORT. The register window: the fields of STATUS, and what a host access to each register does. -/

namespace Sys2Proof.Machine

/-! ### STATUS (R36) -/

/-- STATUS bit by bit: KEYED, BUSY, DONE, ERR, four reserved bits, ERRCODE, and zeros. -/
theorem State.status_getLsbD (s : State) (k : Nat) : s.status.getLsbD k =
    if k = 0 then s.key.isSome else if k = 1 then s.busy else if k = 2 then s.done
    else if k = 3 then s.err else if k < 8 then false else s.errCode.getLsbD (k - 8) := by
  simp only [State.status, State.keyed, BitVec.getLsbD_append, BitVec.getLsbD_ofBool,
    BitVec.getLsbD_zero]
  match k with
  | 0 | 1 | 2 | 3 | 4 | 5 | 6 | 7 => simp
  | k + 8 =>
    by_cases hk : k < 8
    · simp [hk]
    · simp [hk, BitVec.getLsbD_of_ge s.errCode k (Nat.le_of_not_lt hk)]

/-- Settles O28, bit by bit. -/
theorem statusFields : Obligations.StatusFields := by
  intro s
  refine ⟨s.status_getLsbD 0, s.status_getLsbD 1, s.status_getLsbD 2, s.status_getLsbD 3,
    BitVec.eq_of_getLsbD_eq fun k hk => ?_, BitVec.eq_of_getLsbD_eq fun k hk => ?_,
    BitVec.eq_of_getLsbD_eq fun k hk => ?_⟩
  · rw [BitVec.getLsbD_extractLsb', State.status_getLsbD]
    interval_cases k <;> rfl
  · rw [BitVec.getLsbD_extractLsb', State.status_getLsbD]
    interval_cases k <;> rfl
  · rw [BitVec.getLsbD_extractLsb', State.status_getLsbD]
    interval_cases k <;> exact BitVec.getLsbD_of_ge _ _ (by decide)

/-! ### Registers by offset (R33) -/

/-- From 0x20 on the window is reserved. -/
theorem regAt_of_le {off : Nat} (h : 0x20 ≤ off) : regAt off = .reserved := by
  obtain ⟨k, hk⟩ : ∃ k, off / 4 = k + 8 := ⟨off / 4 - 8, by omega⟩
  simp [regAt, hk]

/-- OUT_LEN stands at one aligned offset only. -/
theorem regAt_eq_outLen {off : Nat} (ha : off % 4 = 0) (h : regAt off = .outLen) : off = 0x14 := by
  unfold regAt at h
  split at h
  case h_6 hdiv => omega
  all_goals cases h

theorem State.regValue_ibufSz (s : State) : (s.regValue .ibufSz).toNat = Config.ibufSize := by
  have h := Config.ibufSize_le
  simp only [State.regValue, BitVec.toNat_ofNat]
  omega

theorem State.regValue_obufSz (s : State) : (s.regValue .obufSz).toNat = Config.ibufSize + 48 := by
  have h := Config.ibufSize_le
  simp only [State.regValue, Config.obufSize, BitVec.toNat_ofNat]
  omega

/-! ### Accesses to the window -/

/-- A host read of a register whose value is specified returns it and changes nothing else (R87). -/
theorem hostStep_regRead {s : State} {off : Nat} (ha : off % 4 = 0) (hw : off < 0x40)
    (h : s.busy = false ∨ off ≠ 0x14) : hostStep (.regRead 32 off) s =
      .next { s with reads := .word (s.regValue (regAt off)) :: s.reads } := by
  have hspec : ¬ (regAt off = .outLen ∧ s.busy = true) := fun ⟨hr, hb⟩ =>
    h.elim (by simp [hb]) (· (regAt_eq_outLen ha hr))
  simp only [hostStep, regAccessOk_of ha hw, if_true, State.hostReadReg, hspec, if_false,
    State.observe]

/-- A host write inside the window reaches the register at its offset. -/
theorem hostStep_regWrite (s : State) {off : Nat} (v : Word) (ha : off % 4 = 0) (hw : off < 0x40) :
    hostStep (.regWrite 32 off v) s = s.hostWriteReg (regAt off) v := by
  simp only [hostStep, regAccessOk_of ha hw, if_true]

/-- A write of an operand or a launch is performed while BUSY = 0 (R460). -/
theorem State.guardBusy_of_idle {s : State} (t : State) (h : s.busy = false) :
    s.guardBusy t = .next t := by
  simp [State.guardBusy, h]

/-- Settles O27: every aligned offset is one of the eight registers' or reserved. -/
theorem registerWindowReads : Obligations.RegisterWindowReads := by
  intro s off hw ha hspec
  refine ⟨_, _, hostStep_regRead ha hw hspec, rfl, ?_, ?_, ?_, ?_, ?_, ?_, ?_, ?_, ?_⟩
  · rintro rfl; rfl
  · rintro rfl; rfl
  · rintro rfl; rfl
  · rintro rfl; rfl
  · rintro rfl; rfl
  · rintro rfl; rfl
  · rintro rfl; exact s.regValue_ibufSz
  · rintro rfl; exact s.regValue_obufSz
  · intro hres
    rw [regAt_of_le hres]
    rfl

/-- The writable registers stand at 0x00 and from 0x08 up to 0x10 (R33, R43). -/
theorem State.hostWriteReg_readOnly (s : State) {off : Nat} (v : Word) (ha : off % 4 = 0)
    (hro : off = 0x04 ∨ 0x14 ≤ off) : s.hostWriteReg (regAt off) v = .next s := by
  obtain rfl | hle := hro
  · rfl
  · obtain ⟨k, hk⟩ : ∃ k, off / 4 = k + 5 := ⟨off / 4 - 5, by omega⟩
    match k with
    | 0 | 1 | 2 | k + 3 => simp [regAt, hk, State.hostWriteReg]

/-- A write to a register other than CMD and LEN0-LEN2 is ignored (R43). -/
theorem hostStep_regWrite_readOnly (s : State) {off : Nat} (v : Word) (ha : off % 4 = 0)
    (hw : off < 0x40) (hro : off = 0x04 ∨ 0x14 ≤ off) :
    hostStep (.regWrite 32 off v) s = .next s :=
  (hostStep_regWrite s v ha hw).trans (s.hostWriteReg_readOnly v ha hro)

/-- A host write of an OBUF byte is ignored (R82). -/
theorem hostStep_bufWrite_obuf (s : State) {off : Nat} (v : Byte) (h : off < Config.obufSize) :
    hostStep (.bufWrite .obuf off v) s = .next s := by
  simp [hostStep, bufAccessOk, Buffer.size, State.hostWriteBuf, h]

/-- Settles O29: each kind of access has its rule above. -/
theorem readOnlyWritesAreIgnored : Obligations.ReadOnlyWritesAreIgnored := by
  refine fun s => ⟨fun off v => hostStep_regWrite_readOnly s v, fun off ha hres hw => ?_,
    fun off v => hostStep_bufWrite_obuf s v⟩
  rw [hostStep_regRead ha hw (.inr (by omega)), regAt_of_le hres]
  rfl

/-- Settles O30: while BUSY = 0 the write of a length is performed. -/
theorem lenWritesStoreTheValue : Obligations.LenWritesStoreTheValue := by
  intro s v hb
  refine ⟨?_, ?_, ?_⟩ <;> rw [hostStep_regWrite s v (by decide) (by decide)]
  · exact State.guardBusy_of_idle { s with len0 := v } hb
  · exact State.guardBusy_of_idle { s with len1 := v } hb
  · exact State.guardBusy_of_idle { s with len2 := v } hb

/-! ### The window after reset -/

/-- Settles O41: the registers and bytes are those of `State.reset`, and the constants those of every
state. -/
theorem resetStateValues : Obligations.ResetStateValues := by
  refine ⟨rfl, ?_, rfl, rfl, rfl, rfl, rfl, rfl, rfl, rfl, rfl, rfl, rfl, rfl, fun _ => rfl,
    fun _ => rfl, fun off hres _ => ?_, State.regValue_ibufSz _, State.regValue_obufSz _⟩
  · decide
  · rw [regAt_of_le hres]
    rfl

end Sys2Proof.Machine
end

section
/-! SUPPORT. The bus regions, the accesses to the buffers, and what a host access can fault with. -/

namespace Sys2Proof.Machine

/-! ### Regions on the bus (R84) -/

/-- Regions are placed at `start` or above. -/
theorem le_baseIn (order : List Region) (start i : Nat) (r : Region) :
    start ≤ baseIn order start i r := by
  induction order generalizing start i with
  | nil => exact le_rfl
  | cons q rest ih =>
    rw [baseIn]
    split
    · exact Nat.le_add_right _ _
    · exact le_trans (by omega) (ih _ _)

/-- The lowest region ends before every other one begins. -/
theorem baseIn_head_add_size_le (rest : List Region) (start i : Nat) {q r : Region} (h : q ≠ r) :
    baseIn (q :: rest) start i q + regionSize q ≤ baseIn (q :: rest) start i r := by
  simp only [baseIn, if_true, h, if_false]
  exact le_baseIn _ _ _ _

/-- Of two regions, one of them placed, one ends before the other begins. -/
theorem baseIn_disjoint {order : List Region} {r r' : Region} (hr : r ∈ order) (hne : r ≠ r')
    (start i : Nat) : baseIn order start i r + regionSize r ≤ baseIn order start i r' ∨
      baseIn order start i r' + regionSize r' ≤ baseIn order start i r := by
  induction order generalizing start i with
  | nil => cases hr
  | cons q rest ih =>
    by_cases hq : q = r
    · subst hq
      exact .inl (baseIn_head_add_size_le rest start i hne)
    by_cases hq' : q = r'
    · subst hq'
      exact .inr (baseIn_head_add_size_le rest start i hq)
    · simp only [baseIn, hq, hq', if_false]
      exact ih ((List.mem_cons.1 hr).resolve_left (Ne.symm hq)) _ _

/-- Each of the six orders places each region. -/
theorem mem_regionOrders (k : Fin 6) (r : Region) : r ∈ regionOrders.getD k.val [] := by
  cases r <;> revert k <;> decide

/-- Settles O39: of two regions one ends before the other begins, and in one region the base is common. -/
theorem busRegionsDoNotOverlap : Obligations.BusRegionsDoNotOverlap := by
  intro r r' off off' hoff hoff' haddr
  unfold busAddress at haddr
  by_cases hr : r = r'
  · subst hr
    exact ⟨rfl, Nat.add_left_cancel haddr⟩
  · have hdisj : regionBase r + regionSize r ≤ regionBase r' ∨
        regionBase r' + regionSize r' ≤ regionBase r :=
      baseIn_disjoint (mem_regionOrders Config.regionOrder r) hr 0 0
    omega

/-! ### Faults of a host access (R413) -/

/-- A guarded write faults with nothing but a protocol violation (R460). -/
theorem State.fault_of_guardBusy {s t : State} {f : Fault} (h : s.guardBusy t = .fault f) :
    f = .hostProtocolViolation := by
  unfold State.guardBusy at h
  split at h <;> cases h
  rfl

/-- A register write inside the window faults with nothing but a protocol violation. -/
theorem State.fault_of_hostWriteReg {s : State} {r : RegName} {v : Word} {f : Fault}
    (h : s.hostWriteReg r v = .fault f) : f = .hostProtocolViolation := by
  cases r
  case cmd | len0 | len1 | len2 => exact State.fault_of_guardBusy h
  all_goals cases h

/-- A write inside a buffer faults with nothing but a protocol violation. -/
theorem State.fault_of_hostWriteBuf {s : State} {b : Buffer} {off : Nat} {v : Byte} {f : Fault}
    (h : s.hostWriteBuf b off v = .fault f) : f = .hostProtocolViolation := by
  cases b with
  | ibuf => exact State.fault_of_guardBusy h
  | obuf => cases h

/-- The register accesses the hardware does not define (R85). -/
theorem regAccessOk_eq_false_iff (width off : Nat) :
    regAccessOk width off = false ↔ width ≠ 32 ∨ off % 4 ≠ 0 ∨ 0x40 ≤ off := by
  simp [regAccessOk, regWidthOk, regAligned, regInWindow, imp_iff_not_or, or_assoc]

/-- The buffer bytes the hardware does not have (R86). -/
theorem bufAccessOk_eq_false_iff (b : Buffer) (off : Nat) :
    bufAccessOk b off = false ↔ b.size ≤ off := by
  simp [bufAccessOk]

/-- A register write is a RegAccessFault exactly where the hardware does not define it. -/
theorem hostStep_regWrite_eq_regAccessFault (s : State) (width off : Nat) (v : Word) :
    hostStep (.regWrite width off v) s = .fault .regAccessFault ↔ regAccessOk width off = false := by
  cases hok : regAccessOk width off with
  | false => simp [hostStep, hok]
  | true =>
    simp only [hostStep, hok, if_true, Bool.true_eq_false, iff_false]
    exact fun h => absurd (State.fault_of_hostWriteReg h) (by decide)

theorem hostStep_regRead_eq_regAccessFault (s : State) (width off : Nat) :
    hostStep (.regRead width off) s = .fault .regAccessFault ↔ regAccessOk width off = false := by
  cases hok : regAccessOk width off <;> simp [hostStep, hok]

/-- A buffer write is a BufAccessFault exactly past the buffer's end. -/
theorem hostStep_bufWrite_eq_bufAccessFault (s : State) (b : Buffer) (off : Nat) (v : Byte) :
    hostStep (.bufWrite b off v) s = .fault .bufAccessFault ↔ b.size ≤ off := by
  rw [← bufAccessOk_eq_false_iff]
  cases hok : bufAccessOk b off with
  | false => simp [hostStep, hok]
  | true =>
    simp only [hostStep, hok, if_true, Bool.true_eq_false, iff_false]
    exact fun h => absurd (State.fault_of_hostWriteBuf h) (by decide)

theorem hostStep_bufRead_eq_bufAccessFault (s : State) (b : Buffer) (off : Nat) :
    hostStep (.bufRead b off) s = .fault .bufAccessFault ↔ b.size ≤ off := by
  rw [← bufAccessOk_eq_false_iff]
  cases hok : bufAccessOk b off <;> simp [hostStep, hok]

/-- Settles O31: the check of the access is the only source of the fault. -/
theorem regAccessFaults : Obligations.RegAccessFaults := by
  intro s width off v
  rw [hostStep_regWrite_eq_regAccessFault, hostStep_regRead_eq_regAccessFault,
    regAccessOk_eq_false_iff]
  exact ⟨Iff.rfl, Iff.rfl⟩

/-- Settles O32: the check of the access is the only source of the fault. -/
theorem bufAccessFaults : Obligations.BufAccessFaults := fun s off v =>
  ⟨(hostStep_bufWrite_eq_bufAccessFault s .ibuf off v).symm,
    (hostStep_bufRead_eq_bufAccessFault s .ibuf off).symm,
    (hostStep_bufWrite_eq_bufAccessFault s .obuf off v).symm,
    (hostStep_bufRead_eq_bufAccessFault s .obuf off).symm⟩

/-! ### Writes of IBUF (R87) -/

/-- While BUSY = 0 a host write of an IBUF byte is performed. -/
theorem hostStep_bufWrite_ibuf {s : State} {off : Nat} (v : Byte) (hb : s.busy = false)
    (h : off < Config.ibufSize) : hostStep (.bufWrite .ibuf off v) s = .next (s.setIbuf off v) := by
  have hok : bufAccessOk .ibuf off = true := decide_eq_true h
  simp only [hostStep, hok, if_true, State.hostWriteBuf, State.guardBusy_of_idle _ hb]

/-- Settles O34: the write stores into the canonical list of IBUF. -/
theorem ibufWriteStoresTheByte : Obligations.IbufWriteStoresTheByte := by
  intro s a b hb hwf ha
  refine ⟨s.setIbuf a b, hostStep_bufWrite_ibuf b hb ha, ?_, fun a' hne => ?_,
    s.setIbuf_wf a b hwf, rfl⟩
  · rw [s.setIbuf_ibufByte a b a hwf, if_pos rfl]
  · rw [s.setIbuf_ibufByte a b a' hwf, if_neg hne]

/-! ### Reads (R87, R140) -/

/-- A register read changes the record of reads and, where it takes a free value, the draw counter. -/
theorem State.hostReadReg_eq (s : State) (r : RegName) :
    ∃ v d, s.hostReadReg r = { s with reads := v :: s.reads, draws := d } := by
  unfold State.hostReadReg
  split <;> exact ⟨_, _, rfl⟩

/-- A buffer read changes the record of reads and, where it takes a free value, the draw counter. -/
theorem State.hostReadBuf_eq (s : State) (b : Buffer) (off : Nat) :
    ∃ v d, s.hostReadBuf b off = { s with reads := v :: s.reads, draws := d } := by
  cases b with
  | ibuf => exact ⟨_, _, rfl⟩
  | obuf =>
    unfold State.hostReadBuf
    dsimp only
    split <;> exact ⟨_, _, rfl⟩

/-- A poll reads STATUS and stands again at the head unless that returned BUSY = 0 and DONE = 1. -/
theorem State.hostPoll_eq (s : State) : s.hostPoll =
    { s with
      reads := .word s.status :: s.reads
      pending := if s.busy = true ∨ s.done = false then .poll :: s.pending else s.pending } := by
  have hread : s.hostReadReg .status = { s with reads := .word s.status :: s.reads } := by
    simp [State.hostReadReg, State.observe, State.regValue]
  rw [State.hostPoll, hread]
  cases s.busy <;> cases s.done <;> simp

/-- An access inside the window or the buffer answers with the state its read leaves. -/
theorem next_of_hostStep_regRead {s t : State} {width off : Nat}
    (h : hostStep (.regRead width off) s = .next t) : t = s.hostReadReg (regAt off) := by
  simp only [hostStep] at h
  split at h <;> cases h
  rfl

theorem next_of_hostStep_bufRead {s t : State} {b : Buffer} {off : Nat}
    (h : hostStep (.bufRead b off) s = .next t) : t = s.hostReadBuf b off := by
  simp only [hostStep] at h
  split at h <;> cases h
  rfl

/-- Settles O35: each kind of read has its rule above. -/
theorem hostReadsChangeNothing : Obligations.HostReadsChangeNothing := by
  rintro s t op (⟨width, off, rfl⟩ | ⟨b, off, rfl⟩ | rfl) h
  · obtain ⟨v, d, hread⟩ := s.hostReadReg_eq (regAt off)
    obtain rfl := (next_of_hostStep_regRead h).trans hread
    exact ⟨⟨v, rfl, nofun⟩, by simp⟩
  · obtain ⟨v, d, hread⟩ := s.hostReadBuf_eq b off
    obtain rfl := (next_of_hostStep_bufRead h).trans hread
    exact ⟨⟨v, rfl, nofun⟩, by simp⟩
  · obtain rfl : s.hostPoll = t := by injection h
    rw [State.hostPoll_eq]
    exact ⟨⟨_, rfl, fun _ => rfl⟩, by simp⟩

end Sys2Proof.Machine
end

section
/-! SUPPORT. Who acts at a step, and the command a fetched word runs. -/

namespace Sys2Proof.Machine

/-- Every command's word decodes to it: its fields are those of its row (R122, R127). -/
theorem decode_encode (i : Instr) : decode (encode i) = .ok i := by
  cases i with
  | combine fn =>
    obtain ⟨hrsv, hopc, hfn⟩ := Laws.EncodedFields.combine fn
    simp [decode, opcodeMap, hrsv, hopc, hfn]
  | _ => rfl

/-- The completion step runs the command that CMD decodes to (R131, R133). -/
theorem completionStep_of_decode {s : State} {i : Instr} (h : decode s.cmd = .ok i) :
    completionStep s = exec i s := by
  simp only [completionStep, h]

/-- A due completion is the next step. -/
theorem step_of_completes {s : State} (h : s.completes = true) : step s = completionStep s :=
  if_pos h

theorem step_of_completes_of_decode {s : State} {i : Instr} (hc : s.completes = true)
    (hd : decode s.cmd = .ok i) : step s = exec i s :=
  (step_of_completes hc).trans (completionStep_of_decode hd)

@[simp] theorem State.withFetchWord_cmd (s : State) (w : Word) :
    (s.withFetchWord 32 w.toNat).cmd = w := by
  simp only [State.withFetchWord, State.launched, Nat.mod_eq_of_lt w.isLt, BitVec.ofNat_toNat,
    BitVec.setWidth_eq]

@[simp] theorem State.withFetchWord_completes (s : State) (nbits w : Nat) :
    (s.withFetchWord nbits w).completes = true := rfl

/-- With no command in progress and no access left the machine waits (R451). -/
theorem step_of_waiting {s : State} (hb : s.busy = false) (hp : s.pending = []) :
    step s = .next s := by
  simp [step, State.completes_of_idle hb, hostTurn, hp]

/-- Settles O5: a due completion, a fetched word, the host's turn and waiting have each their rule. -/
theorem stepRunsTheDecodedCommand : Obligations.StepRunsTheDecodedCommand :=
  ⟨fun _ _ hc hd => step_of_completes_of_decode hc hd,
    fun s i => step_of_completes_of_decode (s.withFetchWord_completes _ _)
      (by rw [State.withFetchWord_cmd, decode_encode]),
    fun s w => ⟨s.withFetchWord_cmd w, s.withFetchWord_completes _ _⟩,
    fun s op rest hc hp => step_host s op rest hc hp,
    fun _ hb hp => step_of_waiting hb hp⟩

end Sys2Proof.Machine
end

section
/-! SUPPORT. The fields of a command word, the rows of the opcode map, and the words that decode. -/

namespace Sys2Proof.Machine

/-! ### Command words by their fields (R120) -/

/-- The three fields are the whole word. -/
theorem fields_append (w : Word) : rsvField w ++ (fnField w ++ opcField w) = w := by
  unfold rsvField fnField opcField
  have hlow : w.extractLsb' 8 4 ++ w.extractLsb' 0 8 = w.extractLsb' 0 12 :=
    BitVec.extractLsb'_append_extractLsb'_eq_extractLsb' rfl
  have hall : w.extractLsb' 12 20 ++ w.extractLsb' 0 12 = w.extractLsb' 0 32 :=
    BitVec.extractLsb'_append_extractLsb'_eq_extractLsb' rfl
  exact (congrArg _ hlow).trans (hall.trans BitVec.extractLsb'_eq_self)

theorem word_eq_iff_fields {w v : Word} :
    w = v ↔ rsvField w = rsvField v ∧ fnField w = fnField v ∧ opcField w = opcField v := by
  refine ⟨fun h => h ▸ ⟨rfl, rfl, rfl⟩, fun ⟨hrsv, hfn, hopc⟩ => ?_⟩
  rw [← fields_append w, ← fields_append v, hrsv, hfn, hopc]

theorem opcField_toNat (w : Word) : (opcField w).toNat = w.toNat % 2 ^ 8 := by
  simp [opcField]

theorem fnField_eq_zero_iff (w : Word) : fnField w = 0 ↔ w.toNat / 2 ^ 8 % 2 ^ 4 = 0 := by
  simp [fnField, BitVec.toNat_eq, Nat.shiftRight_eq_div_pow]

theorem rsvField_eq_zero_iff (w : Word) : rsvField w = 0 ↔ w.toNat / 2 ^ 12 = 0 := by
  have hlt : w.toNat / 2 ^ 12 < 2 ^ 20 := by omega
  simp only [rsvField, BitVec.toNat_eq, BitVec.extractLsb'_toNat, Nat.shiftRight_eq_div_pow,
    Nat.mod_eq_of_lt hlt]
  exact Iff.rfl

/-! ### The rows of the opcode map (R122) -/

/-- The word of a row's command has the row's opcode, RSV 0 and the FN given, which must be 0 where the
row has no FN (R127). -/
theorem encode_command_fields : ∀ row ∈ opcodeMap, ∀ fn : BitVec 4,
    (row.usesFn = false → fn = 0) → rsvField (encode (row.command fn)) = 0 ∧
      fnField (encode (row.command fn)) = fn ∧ opcField (encode (row.command fn)) = row.opc := by
  decide

/-- The ten opcodes, as numbers. -/
theorem opcodeMap_opcodes : opcodeMap.map (fun row => row.opc.toNat) =
    [0x01, 0x02, 0x10, 0x11, 0x20, 0x21, 0x30, 0x31, 0x40, 0x41] := rfl

/-- Only COMBINE's row has an FN (R120). -/
theorem usesFn_eq_false_iff : ∀ row ∈ opcodeMap, (row.usesFn = false ↔ row.opc.toNat ≠ 0x11) := by
  decide

/-- A word with a row's opcode, RSV 0 and an FN the row allows is the word of the row's command. -/
theorem eq_encode_command {w : Word} {row : OpcodeRow} (hrow : row ∈ opcodeMap)
    (hopc : row.opc = opcField w) (hrsv : rsvField w = 0)
    (hfn : row.usesFn = false → fnField w = 0) : w = encode (row.command (fnField w)) := by
  obtain ⟨hrsv', hfn', hopc'⟩ := encode_command_fields row hrow (fnField w) hfn
  exact word_eq_iff_fields.2 ⟨hrsv.trans hrsv'.symm, hfn'.symm, hopc.symm.trans hopc'.symm⟩

/-! ### The words that decode -/

/-- What decoding a word to a command means: a row of its opcode, RSV 0, FN 0 unless the row uses it,
and the row's command (R123, R133). -/
theorem decode_eq_ok_iff {w : Word} {i : Instr} : decode w = .ok i ↔
    ∃ row ∈ opcodeMap, row.opc = opcField w ∧ rsvField w = 0 ∧
      (row.usesFn = false → fnField w = 0) ∧ row.command (fnField w) = i := by
  constructor
  · intro h
    unfold decode at h
    split at h
    case h_1 => cases h
    case h_2 row hrow =>
      split_ifs at h with hrsv hfn
      cases h
      exact ⟨row, List.mem_of_find?_eq_some hrow, by simpa using List.find?_some hrow,
        not_not.1 hrsv, fun hu => not_not.1 fun hne => hfn ⟨hu, hne⟩, rfl⟩
  · rintro ⟨row, hrow, hopc, hrsv, hfn, rfl⟩
    exact (congrArg decode (eq_encode_command hrow hopc hrsv hfn)).trans (decode_encode _)

/-- A word that decodes is the word of its command. -/
theorem eq_encode_of_decode {w : Word} {i : Instr} (h : decode w = .ok i) : w = encode i := by
  obtain ⟨row, hrow, hopc, hrsv, hfn, rfl⟩ := decode_eq_ok_iff.1 h
  exact eq_encode_command hrow hopc hrsv hfn

/-- Settles O2: a word that decodes has the fields of its command's word, and that word decodes. -/
theorem decodeIsInverseOfEncode : Obligations.DecodeIsInverseOfEncode :=
  fun _ i => ⟨eq_encode_of_decode, fun h => h ▸ decode_encode i⟩

/-- Settles O3: the rows give the legal opcodes, and which of them takes an FN. -/
theorem wordDecodesExactlyWhenLegal : Obligations.WordDecodesExactlyWhenLegal := by
  intro w
  unfold LegalCommandWord
  rw [← opcodeMap_opcodes, ← opcField_toNat, ← rsvField_eq_zero_iff, ← fnField_eq_zero_iff,
    List.mem_map]
  constructor
  · rintro ⟨i, h⟩
    obtain ⟨row, hrow, hopc, hrsv, hfn, -⟩ := decode_eq_ok_iff.1 h
    rw [← hopc, or_iff_not_imp_left]
    exact ⟨⟨row, hrow, rfl⟩, hrsv, hfn ∘ (usesFn_eq_false_iff row hrow).2⟩
  · rintro ⟨⟨row, hrow, hopc⟩, hrsv, hfn⟩
    rw [← hopc, or_iff_not_imp_left] at hfn
    exact ⟨_, decode_eq_ok_iff.2 ⟨row, hrow, BitVec.eq_of_toNat_eq hopc, hrsv,
      hfn ∘ (usesFn_eq_false_iff row hrow).1, rfl⟩⟩

/-! ### Masks and matches (opcode_table.json) -/

/-- A row without an operand in its word: the mask keeps every bit, and the match is the command's word. -/
theorem fullMask_eq_iff (i : Instr) (w : Word) :
    w &&& 0xFFFFFFFF = encode i ↔ decode w = .ok i := by
  rw [decodeIsInverseOfEncode w i, show (0xFFFFFFFF : Word) = BitVec.allOnes 32 from rfl,
    BitVec.and_allOnes]

/-- COMBINE's row: the mask leaves FN out, and the command takes it from the word (R187). -/
theorem combineMask_eq_iff (w : Word) :
    w &&& 0xFFFFF0FF = 0x00000011 ↔ decode w = .ok (.combine (fnField w)) := by
  obtain ⟨hrsv, hopc, hfn⟩ := Laws.EncodedFields.combine (fnField w)
  rw [decodeIsInverseOfEncode, word_eq_iff_fields, word_eq_iff_fields, hrsv, hopc, hfn]
  have hrsvMask : rsvField (w &&& 0xFFFFF0FF) = rsvField w :=
    BitVec.extractLsb'_and.trans BitVec.and_allOnes
  have hfnMask : fnField (w &&& 0xFFFFF0FF) = 0 :=
    BitVec.extractLsb'_and.trans BitVec.and_zero
  have hopcMask : opcField (w &&& 0xFFFFF0FF) = opcField w :=
    BitVec.extractLsb'_and.trans BitVec.and_allOnes
  rw [hrsvMask, hfnMask, hopcMask]
  exact and_congr Iff.rfl (and_congr (iff_of_true rfl rfl) Iff.rfl)

/-- Settles O4: COMBINE's row leaves FN out of its mask, the other nine have a full one. -/
theorem decodeAgreesWithMaskAndMatch : Obligations.DecodeAgreesWithMaskAndMatch := by
  unfold Obligations.DecodeAgreesWithMaskAndMatch maskedRows
  simp only [List.forall_mem_cons]
  exact ⟨fullMask_eq_iff .loadKeys, fullMask_eq_iff .clear, fullMask_eq_iff .keystream,
    combineMask_eq_iff, fullMask_eq_iff .vernamEnc, fullMask_eq_iff .vernamDec,
    fullMask_eq_iff .aesEnc, fullMask_eq_iff .aesDec, fullMask_eq_iff .encrypt,
    fullMask_eq_iff .decrypt, List.forall_mem_nil _⟩

/-- Settles O1: the words of rule R127 are those of the encoder. -/
theorem commandWordsDecode : Obligations.CommandWordsDecode :=
  ⟨decode_encode .loadKeys, decode_encode .clear, decode_encode .keystream,
    decode_encode .vernamEnc, decode_encode .vernamDec, decode_encode .aesEnc,
    decode_encode .aesDec, decode_encode .encrypt, decode_encode .decrypt,
    decode_encode (.combine 0x6), fun fn => decode_encode (.combine fn)⟩

end Sys2Proof.Machine
end

section
/-! SUPPORT. The two ends of a command: its launch by a write of CMD, and its completion. -/

namespace Sys2Proof.Machine

/-- While BUSY a write of an operand or a launch is a protocol violation (R460). -/
theorem State.guardBusy_of_busy {s : State} (t : State) (h : s.busy = true) :
    s.guardBusy t = .fault .hostProtocolViolation := by
  simp [State.guardBusy, h]

/-- A host write of CMD is a guarded launch (R34, R130). -/
theorem hostStep_regWrite_cmd (s : State) (w : Word) :
    hostStep (.regWrite 32 0x00 w) s = s.guardBusy (s.launch w) :=
  hostStep_regWrite s w (by decide) (by decide)

/-- Settles O7: while BUSY = 0 the launch is performed, and each field is read off it. -/
theorem cmdWriteLaunches : Obligations.CmdWriteLaunches := by
  intro s w
  rw [hostStep_regWrite_cmd]
  refine ⟨fun hb => ⟨s.launch w, State.guardBusy_of_idle _ hb, ?_⟩, State.guardBusy_of_busy _⟩
  exact ⟨rfl, rfl, rfl, rfl, rfl, rfl, rfl, rfl, rfl, rfl, rfl, rfl, fun _ => rfl, fun _ => rfl,
    rfl, rfl, rfl⟩

/-- Settles O9: a command ends by an engine error, whose code is not 0, or by a success. -/
theorem everyCommandEnds : Obligations.EveryCommandEnds := by
  intro i s
  obtain ⟨e, h⟩ | ⟨s', out, h, -⟩ := exec_cases i s
  · exact ⟨_, h, rfl, rfl, iff_of_true rfl e.code_ne_zero⟩
  · exact ⟨_, h, rfl, rfl, by simp⟩

end Sys2Proof.Machine
end

section
/-! SUPPORT. How a command ends by its answer: with the answer's error or with its output (R131, R410). -/

namespace Sys2Proof.Machine

/-- R410: the failed completion reports its error. -/
theorem EndedInError.raise (s : State) (e : EngineError) : EndedInError (s.raise e) e :=
  ⟨rfl, rfl, rfl, rfl, rfl, rfl⟩

/-- R131: the successful completion of an output that fits OBUF reports its length. -/
theorem EndedInSuccess.finish (s : State) {out : List Byte} (h : out.length ≤ Config.obufSize) :
    EndedInSuccess (s.finish out) out.length :=
  ⟨rfl, rfl, rfl, rfl, s.finish_outLen_toNat h, rfl⟩

theorem exec_of_answer_error {i : Instr} {s : State} {e : EngineError}
    (h : s.answer i = .error e) : exec i s = .next (s.raise e) :=
  exec_next_iff.2 (.inl ⟨e, h, rfl⟩)

theorem exec_of_answer_ok {i : Instr} {s : State} {out : List Byte}
    (h : s.answer i = .ok out) : exec i s = .next ((s.prepared i).finish out) :=
  exec_next_iff.2 (.inr ⟨out, h, rfl⟩)

/-- A command whose answer is an error fails with it (R410). -/
theorem failsWith_of_answer {i : Instr} {s : State} {e : EngineError}
    (h : s.answer i = .error e) : FailsWith i s e :=
  ⟨_, exec_of_answer_error h, .raise s e, .raise s e, rfl⟩

/-- A command other than LOAD_KEYS whose answer is an output succeeds with it (R131, R45). -/
theorem succeedsWith_of_answer {i : Instr} {s : State} {out : List Byte} {P : State → Prop}
    (hi : i ≠ .loadKeys) (h : s.answer i = .ok out) (hP : P ((s.prepared i).finish out)) :
    SucceedsWith i s out.length P :=
  have hexec := exec_of_answer_ok h
  ⟨_, hexec, .finish _ (State.answer_length_le h), exec_operandsKept hexec,
    exec_key hexec (.inl hi), hP⟩

end Sys2Proof.Machine
end

section
/-! SUPPORT. The checks and the keys of LOAD_KEYS (R161), and CLEAR (R165). -/

namespace Sys2Proof.Machine

@[simp] theorem State.memReadVector_getElem (s : State) (off n i : Nat) (h : i < n) :
    (s.memReadVector off n)[i] = s.ibufByte (off + i) :=
  s.memRead_getElem off n i (h.trans_eq (s.memRead_length off n).symm)

/-- The lengths LOAD_KEYS refuses, as numbers and as register words (R40, R161). -/
theorem State.wrongKeyLengths_iff (s : State) : (s.n0 ≠ 32 ∨ s.n1 ≠ 16 ∨ s.n2 ≠ 32) ↔
    (s.len0 ≠ 32 ∨ s.len1 ≠ 16 ∨ s.len2 ≠ 32) := by
  simp only [State.n0, State.n1, State.n2, Ne, BitVec.toNat_eq]
  exact Iff.rfl

/-- KeysLocked is checked first (R161, R411). -/
theorem State.keysInput_of_keyed {s : State} (hk : s.key ≠ none) :
    s.keysInput = .error .keysLocked := by
  obtain ⟨km, hkm⟩ := Option.ne_none_iff_exists'.1 hk
  simp only [State.keysInput, State.requireNoKeys, hkm]

/-- With no keys loaded the lengths decide: InvalidKeyLength, or the keys in IBUF (R161). -/
theorem State.keysInput_of_unkeyed {s : State} (hk : s.key = none) :
    s.keysInput = if s.len0 ≠ 32 ∨ s.len1 ≠ 16 ∨ s.len2 ≠ 32 then .error .invalidKeyLength
      else .ok s.ibufKeys := by
  simp only [State.keysInput, State.requireNoKeys, hk, State.wrongKeyLengths_iff, State.ibufKeys]

/-- Settles O10: the three checks of LOAD_KEYS decide its answer, and the prepared state of a success
holds the keys in IBUF. -/
theorem loadKeysCommand : Obligations.LoadKeysCommand := by
  refine ⟨decode_encode .loadKeys, fun s => ⟨fun hk => failsWith_of_answer ?_,
    fun hk hlen => failsWith_of_answer ?_, fun hk h0 h1 h2 => ?_⟩⟩
  · simp only [State.answer, State.keysInput_of_keyed hk, Except.map]
  · simp only [State.answer, State.keysInput_of_unkeyed hk, if_pos hlen, Except.map]
  · have hans : s.answer .loadKeys = .ok [] := by
      simp [State.answer, State.keysInput_of_unkeyed hk, h0, h1, h2, Except.map]
    have hexec := exec_of_answer_ok hans
    refine ⟨_, hexec, .finish _ (State.answer_length_le hans), exec_operandsKept hexec, rfl,
      s.ibufKeys, rfl, fun j hj => ?_, s.memReadVector_getElem 32 16, s.memReadVector_getElem 48 32⟩
    exact (s.memReadVector_getElem 0 32 j hj).trans (by rw [Nat.zero_add])

/-- Settles O11: CLEAR checks nothing and answers no output. -/
theorem clearCommand : Obligations.ClearCommand :=
  ⟨decode_encode .clear, fun _ => succeedsWith_of_answer (out := []) nofun rfl trivial⟩

end Sys2Proof.Machine
end

section
/-! SUPPORT. The bit-sequence operators byte by byte: `bytesOf` eight bits at a time, the bits of what it
gives, the laws of rule R186, and COMBINE (R187). -/

namespace Sys2Proof.Machine

/-! ### `bytesOf` eight bits at a time (R184) -/

/-- Bit sequences as `bytesOf` takes them apart: fewer than eight bits, or eight bits and the rest. -/
theorem eightBits_induction {motive : List Bool → Prop} (short : ∀ s, s.length < 8 → motive s)
    (byte : ∀ c rest, c.length = 8 → motive rest → motive (c ++ rest)) : ∀ s, motive s
  | s0 :: s1 :: s2 :: s3 :: s4 :: s5 :: s6 :: s7 :: rest =>
    byte [s0, s1, s2, s3, s4, s5, s6, s7] rest rfl (eightBits_induction short byte rest)
  | [] | [_] | [_, _] | [_, _, _] | [_, _, _, _] | [_, _, _, _, _] | [_, _, _, _, _, _]
  | [_, _, _, _, _, _, _] => short _ (by simp)

theorem bytesOf_append_of_length_eq_eight (tail : Config.TailPolicy) {c : List Bool}
    (hc : c.length = 8) (rest : List Bool) :
    bytesOf tail (c ++ rest) = byteOfBits c :: bytesOf tail rest := by
  match c, hc with
  | [_, _, _, _, _, _, _, _], _ => exact bytesOf_cons8 ..

/-- Bit `8j + i` of the bytes of a sequence is its bit `8j + i`, or 0 past its end (R184, R185). -/
theorem bytesOf_getLsbD (tail : Config.TailPolicy) (s : List Bool) {j i : Nat}
    (hj : j < outBytes tail s.length) (hi : i < 8) :
    ((bytesOf tail s).getD j 0).getLsbD (7 - i) = s.getD (8 * j + i) false := by
  induction s using eightBits_induction generalizing j with
  | short s hs =>
    cases tail with
    | truncate =>
      have : s.length / 8 = 0 := Nat.div_eq_of_lt hs
      simp only [outBytes] at hj
      omega
    | zeroPad =>
      simp only [outBytes] at hj
      obtain rfl : j = 0 := by omega
      have hne : s ≠ [] := by rintro rfl; simp at hj
      rw [bytesOf_short _ s hne hs, Nat.mul_zero, Nat.zero_add]
      exact byteOfBits_getLsbD s i hi
  | byte c rest hc ih =>
    rw [bytesOf_append_of_length_eq_eight tail hc]
    cases j with
    | zero =>
      rw [List.getD_append _ _ _ _ (by omega), Nat.mul_zero, Nat.zero_add]
      exact byteOfBits_getLsbD c i hi
    | succ j =>
      rw [List.length_append, hc, Nat.add_comm 8, outBytes_add_eight] at hj
      rw [List.getD_append_right _ _ _ _ (by omega), List.getD_cons_succ,
        ih (Nat.lt_of_succ_lt_succ hj)]
      congr 1
      omega

/-- Settles O13: the length of the bytes and their bits, for a tail of either policy. -/
theorem tailPolicyLengths : Obligations.TailPolicyLengths :=
  fun tail bits => ⟨bytesOf_length tail bits, rfl, rfl,
    fun _ hj _ hi => bytesOf_getLsbD tail bits hj hi⟩

/-! ### `bitsOf` and `bytesOf` are inverse (R186, law 2) -/

/-- Bits of a byte by their number in it, which counts from the other end (R89). -/
theorem byte_ext_of_getLsbD_sub {x y : Byte}
    (h : ∀ i, i < 8 → x.getLsbD (7 - i) = y.getLsbD (7 - i)) : x = y := by
  refine BitVec.eq_of_getLsbD_eq fun k hk => ?_
  have := h (7 - k) (by omega)
  rwa [Nat.sub_sub_self (Nat.le_of_lt_succ hk)] at this

theorem bitsOfByte_getD (b : Byte) {i : Nat} (hi : i < 8) :
    (bitsOfByte b).getD i false = b.getLsbD (7 - i) := by
  simp [bitsOfByte, hi]

theorem byteOfBits_bitsOfByte (b : Byte) : byteOfBits (bitsOfByte b) = b :=
  byte_ext_of_getLsbD_sub fun i hi => (byteOfBits_getLsbD _ i hi).trans (bitsOfByte_getD b hi)

theorem bitsOfByte_byteOfBits {c : List Bool} (hc : c.length = 8) :
    bitsOfByte (byteOfBits c) = c := by
  refine List.ext_getElem (by simp [hc]) fun i hi hi' => ?_
  rw [← List.getD_eq_getElem _ false hi, ← List.getD_eq_getElem _ false hi',
    bitsOfByte_getD _ (hc ▸ hi'), byteOfBits_getLsbD c i (hc ▸ hi')]

@[simp] theorem bytesOf_bitsOf (tail : Config.TailPolicy) (x : List Byte) :
    bytesOf tail (bitsOf x) = x := by
  induction x with
  | nil => exact bytesOf_nil tail
  | cons b x ih =>
    rw [bitsOf_cons, bytesOf_append_of_length_eq_eight tail (bitsOfByte_length b),
      byteOfBits_bitsOfByte, ih]

theorem bitsOf_bytesOf (tail : Config.TailPolicy) {s : List Bool} (h : s.length % 8 = 0) :
    bitsOf (bytesOf tail s) = s := by
  induction s using eightBits_induction with
  | short s hs =>
    obtain rfl : s = [] := List.length_eq_zero_iff.1 (by omega)
    rw [bytesOf_nil]
    rfl
  | byte c rest hc ih =>
    rw [List.length_append, hc, Nat.add_mod_left] at h
    rw [bytesOf_append_of_length_eq_eight tail hc, bitsOf_cons, bitsOfByte_byteOfBits hc, ih h]

/-! ### `combine` (R182) -/

/-- Of a stream, `combine` takes as much as the finite operand is long (R182). -/
theorem combine_finite_stream (a : List Bool) (f : Nat → Bool) (op : Bool → Bool → Bool) :
    combine (.finite a) (.stream f) op =
      combine (.finite a) (.finite ((BitSeq.stream f).take a.length)) op := rfl

/-- A stream and a finite sequence combine to the length of the finite one (R182). -/
@[simp] theorem combine_stream_finite_length (f : Nat → Bool) (b : List Bool)
    (op : Bool → Bool → Bool) :
    (combine (.stream f) (.finite b) op).finiteBits.length = b.length := by
  simp [combine, BitSeq.finiteBits]

/-- Bit `k` of a combination is `op` of the operands' bits `k` (R182). -/
theorem combine_finiteBits_getD {a b : List Bool} (op : Bool → Bool → Bool) {k : Nat}
    (ha : k < a.length) (hb : k < b.length) :
    (combine (.finite a) (.finite b) op).finiteBits.getD k false =
      op (a.getD k false) (b.getD k false) := by
  simp [combine, BitSeq.finiteBits, ha, hb]

theorem opXor_opXor_cancel : ∀ a b : Bool, opXor (opXor a b) b = a := by decide

/-- XOR with an operand at least as long is its own inverse (R186, law 4). -/
theorem combine_opXor_twice {a b : List Bool} (h : a.length ≤ b.length) :
    combine (combine (.finite a) (.finite b) opXor) (.finite b) opXor = .finite a := by
  refine congrArg BitSeq.finite (List.ext_getElem (by simp [h]) fun k _ _ => ?_)
  simp only [List.getElem_zipWith, opXor_opXor_cancel]

/-- XOR with a stream is its own inverse: it takes the same bits of the stream both times. -/
theorem combine_stream_opXor_twice (a : List Bool) (f : Nat → Bool) :
    combine (combine (.finite a) (.stream f) opXor) (.stream f) opXor = .finite a := by
  have hlen : (combine (.finite a) (.stream f) opXor).finiteBits.length = a.length :=
    combine_finite_stream_length a f opXor
  calc combine (combine (.finite a) (.stream f) opXor) (.stream f) opXor
      = combine (combine (.finite a) (.stream f) opXor)
          (.finite ((BitSeq.stream f).take a.length)) opXor := by
        rw [← hlen]
        exact combine_finite_stream _ f opXor
    _ = .finite a := combine_opXor_twice (by simp)

/-! ### `combine` of byte sequences (R186, laws 6 and 7; R187) -/

/-- Two byte sequences combine to whole bytes (R186, law 6). -/
theorem combine_bitsOf_length (x y : List Byte) (op : Bool → Bool → Bool) :
    (combine (.finite (bitsOf x)) (.finite (bitsOf y)) op).finiteBits.length =
      8 * min x.length y.length := by
  simp only [combine_finite_finite_length, bitsOf_length]
  omega

/-- Each bit of a byte of the combination is `op` of the same bit of the operands' bytes. -/
theorem bytesOf_combine_getLsbD (tail : Config.TailPolicy) (op : Bool → Bool → Bool)
    {x y : List Byte} {j i : Nat} (hj : j < min x.length y.length) (hi : i < 8) :
    ((bytesOf tail (combine (.finite (bitsOf x)) (.finite (bitsOf y)) op).finiteBits).getD j
      0).getLsbD i = op ((x.getD j 0).getLsbD i) ((y.getD j 0).getLsbD i) := by
  have hbytes : j < outBytes tail
      (combine (.finite (bitsOf x)) (.finite (bitsOf y)) op).finiteBits.length := by
    rwa [combine_bitsOf_length, outBytes_mul_eight]
  have hx : 8 * j + (7 - i) < (bitsOf x).length := by rw [bitsOf_length]; omega
  have hy : 8 * j + (7 - i) < (bitsOf y).length := by rw [bitsOf_length]; omega
  have h := bytesOf_getLsbD tail _ hbytes (i := 7 - i) (by omega)
  rwa [combine_finiteBits_getD op hx hy, bitsOf_getD x j _ (by omega), bitsOf_getD y j _ (by omega),
    Nat.sub_sub_self (Nat.le_of_lt_succ hi)] at h

/-- XOR of the bits is XOR of the bytes (R186, law 7). -/
theorem bytesOf_combine_opXor (tail : Config.TailPolicy) (x y : List Byte) :
    bytesOf tail (combine (.finite (bitsOf x)) (.finite (bitsOf y)) opXor).finiteBits =
      List.zipWith (· ^^^ ·) x y := by
  refine List.ext_getElem ?_ fun j hj hj' => BitVec.eq_of_getLsbD_eq fun i hi => ?_
  · rw [bytesOf_length, combine_bitsOf_length, outBytes_mul_eight, List.length_zipWith]
  · rw [List.length_zipWith] at hj'
    rw [← List.getD_eq_getElem _ 0 hj, bytesOf_combine_getLsbD tail opXor hj' hi, opXor_eq,
      List.getElem_zipWith, BitVec.getLsbD_xor, List.getD_eq_getElem _ _ (by omega),
      List.getD_eq_getElem _ _ (by omega)]

/-- Settles O44: the laws of rule R186 in their order. -/
theorem bitOperatorLaws : Obligations.BitOperatorLaws :=
  ⟨bitsOf_length, bytesOf_bitsOf, fun tail _ => bitsOf_bytesOf tail,
    fun a b op => ⟨rfl, combine_finite_finite_length a b op⟩,
    fun a f op => ⟨rfl, combine_finite_stream_length a f op⟩,
    fun f b op => ⟨rfl, combine_stream_finite_length f b op⟩,
    fun _ _ _ => rfl, fun _ _ => combine_opXor_twice, combine_stream_opXor_twice,
    combine_bitsOf_length, bytesOf_combine_opXor⟩

/-! ### COMBINE (R187) -/

theorem State.memRead_getD (s : State) {off n i : Nat} (h : i < n) :
    (s.memRead off n).getD i 0 = s.ibufByte (off + i) := by
  rw [List.getD_eq_getElem _ _ (by rwa [State.memRead_length]), State.memRead_getElem]

/-- The answer of COMBINE is the combination of its operands, when their lengths together fit IBUF. -/
theorem State.answer_combine (s : State) (fn : BitVec 4) : s.answer (.combine fn) =
    if s.n0 + s.n1 > Config.ibufSize then .error .lengthError
    else .ok (combineBytes fn (s.memRead 0 s.n0) (s.memRead s.n0 s.n1)) := by
  simp only [State.answer, State.combineInput]
  split <;> rfl

/-- A bit of COMBINE's output is the bit of FN that the operands' bits select (R183, R187). -/
theorem combineBytes_getLsbD (fn : BitVec 4) {a b : List Byte} {j i : Nat}
    (hj : j < min a.length b.length) (hi : i < 8) :
    ((combineBytes fn a b).getD j 0).getLsbD i =
      fn.getLsbD (2 * ((a.getD j 0).getLsbD i).toNat + ((b.getD j 0).getLsbD i).toNat) :=
  bytesOf_combine_getLsbD Config.bytesOfTail (opFn fn) hj hi

/-- Settles O14: the length check decides the answer of COMBINE, whose bits are known. -/
theorem combineCommand : Obligations.CombineCommand := by
  refine fun fn s => ⟨decode_encode (.combine fn), fun hlen => failsWith_of_answer ?_,
    fun hlen => ?_⟩
  · exact (s.answer_combine fn).trans (if_pos hlen)
  · have hans := (s.answer_combine fn).trans (if_neg (Nat.not_lt.2 hlen))
    have hout : (combineBytes fn (s.memRead 0 s.n0) (s.memRead s.n0 s.n1)).length =
        min s.n0 s.n1 := by simp
    refine hout ▸ succeedsWith_of_answer nofun hans fun j hj i hi => ?_
    have hmin : j < min s.n0 s.n1 := hout ▸ hj
    rw [State.finish_obufByte_of_lt _ hj, ← List.getD_eq_getElem _ 0 hj,
      combineBytes_getLsbD fn (by simpa using hmin) hi, State.memRead_getD s (by omega),
      State.memRead_getD s (by omega), Nat.zero_add]
    rfl

end Sys2Proof.Machine
end

section
/-! SUPPORT. KEYSTREAM (R216): the bits of a keystream, its prefixes (R218), and KS_REF as the hash in
counter mode (R214). -/

namespace Sys2Proof.Machine

/-! ### The first bits of a stream (R12) -/

/-- The first `m + n` bits of a stream are its first `m` bits and the next `n`. -/
theorem BitSeq.take_stream_add (m n : Nat) (f : Nat → Bool) :
    (BitSeq.stream f).take (m + n) =
      (BitSeq.stream f).take m ++ (BitSeq.stream fun t => f (m + t)).take n := by
  simp [BitSeq.take, List.range_add, Function.comp_def]

theorem BitSeq.take_stream_getD (n k : Nat) (f : Nat → Bool) :
    ((BitSeq.stream f).take n).getD k false = (decide (k < n) && f k) := by
  by_cases hk : k < n <;> simp [BitSeq.take, hk]

/-! ### The output bits of KEYSTREAM (R216, R217) -/

/-- Bit `8j + i` of the output is the keystream's below the bit count, and 0 in the padding above it. -/
theorem keystreamBytes_getLsbD (ks : List Byte → Nat → Bool) (tail : Config.TailPolicy)
    (seed : List Byte) {n j i : Nat} (hj : j < outBytes tail n) (hi : i < 8) :
    ((keystreamBytes ks tail seed n).getD j 0).getLsbD (7 - i) =
      (decide (8 * j + i < n) && ks seed (8 * j + i)) :=
  (bytesOf_getLsbD tail _ (by rwa [BitSeq.take_stream_length]) hi).trans
    (BitSeq.take_stream_getD ..)

/-- The answer of KEYSTREAM is the keystream of its seed, when the seed fits IBUF and the output OBUF. -/
theorem State.answer_keystream (s : State) : s.answer .keystream =
    if s.n0 > Config.ibufSize ∨ outBytes Config.bytesOfTail s.n1 > Config.obufSize then
      .error .lengthError
    else .ok (keystreamBytes Config.ks Config.bytesOfTail (s.memRead 0 s.n0) s.n1) := by
  simp only [State.answer, State.keystreamInput]
  split <;> rfl

theorem State.memRead_zero (s : State) (n : Nat) :
    s.memRead 0 n = (List.range n).map s.ibufByte := by
  simp only [State.memRead, Nat.zero_add]

/-- Settles O12: the two length checks decide the answer of KEYSTREAM, whose bits are known. -/
theorem keystreamCommand : Obligations.KeystreamCommand := by
  refine ⟨decode_encode .keystream, fun s => ⟨fun hlen => failsWith_of_answer ?_,
    fun hseed hout => ?_⟩⟩
  · exact s.answer_keystream.trans (if_pos hlen)
  · have hans := s.answer_keystream.trans
      (if_neg (not_or.2 ⟨Nat.not_lt.2 hseed, Nat.not_lt.2 hout⟩))
    have hlen := keystreamBytes_length Config.ks Config.bytesOfTail (s.memRead 0 s.n0) s.n1
    refine hlen ▸ succeedsWith_of_answer nofun hans fun j hj i hi => ?_
    rw [State.finish_obufByte_of_lt _ hj, ← List.getD_eq_getElem _ 0 hj,
      keystreamBytes_getLsbD _ _ _ (hlen ▸ hj) hi, State.memRead_zero]
    rfl

/-! ### Prefixes of the output (R218) -/

/-- Whole bytes of bits are regrouped apart from what follows them (R184). -/
theorem bytesOf_append (tail : Config.TailPolicy) {a : List Bool} (h : a.length % 8 = 0)
    (b : List Bool) : bytesOf tail (a ++ b) = bytesOf tail a ++ bytesOf tail b := by
  induction a using eightBits_induction with
  | short a ha =>
    obtain rfl : a = [] := List.length_eq_zero_iff.1 (by omega)
    rw [bytesOf_nil, List.nil_append, List.nil_append]
  | byte c rest hc ih =>
    rw [List.length_append, hc, Nat.add_mod_left] at h
    rw [List.append_assoc, bytesOf_append_of_length_eq_eight tail hc,
      bytesOf_append_of_length_eq_eight tail hc, ih h, List.cons_append]

/-- `outBytes` of whole bytes (R185). -/
theorem outBytes_of_mod_eight (tail : Config.TailPolicy) {n : Nat} (h : n % 8 = 0) :
    outBytes tail n = n / 8 := by
  obtain ⟨k, rfl⟩ := Nat.dvd_of_mod_eq_zero h
  rw [outBytes_mul_eight, Nat.mul_div_cancel_left k (by decide)]

/-- Whole bytes of keystream stay as they are when more bits are taken (R218). -/
theorem keystreamBytes_prefix (ks : List Byte → Nat → Bool) (tail : Config.TailPolicy)
    (seed : List Byte) {n1 n2 : Nat} (hle : n1 ≤ n2) (h8 : n1 % 8 = 0) :
    keystreamBytes ks tail seed n1 <+: keystreamBytes ks tail seed n2 := by
  obtain ⟨n, rfl⟩ := Nat.exists_eq_add_of_le hle
  rw [keystreamBytes, keystreamBytes, BitSeq.take_stream_add,
    bytesOf_append tail (by rwa [BitSeq.take_stream_length])]
  exact List.prefix_append ..

/-- Settles O45: a prefix is what taking its length gives, and whole bytes have no tail. -/
theorem keystreamPrefix : Obligations.KeystreamPrefix := by
  intro ks tail seed n1 n2 hle h8
  have hlen : (keystreamBytes ks tail seed n1).length = n1 / 8 :=
    (keystreamBytes_length ks tail seed n1).trans (outBytes_of_mod_eight tail h8)
  have hprefix := List.prefix_iff_eq_take.1 (keystreamBytes_prefix ks tail seed hle h8)
  exact ⟨by rwa [hlen] at hprefix, hlen⟩

/-! ### KS_REF in counter mode (R214) -/

@[simp] theorem shaOutput_length (s : ShaState) : (shaOutput s).length = 32 := by
  simp [shaOutput, be32]

@[simp] theorem sha256_length (m : List Byte) : (sha256 m).length = 32 := shaOutput_length _

/-- Bits `256i` to `256i + 255` of KS_REF are those of the digest `D(i)` (R214). -/
theorem take_ksRef_digest (seed : List Byte) (i : Nat) :
    (BitSeq.stream fun t => ksRef seed (256 * i + t)).take 256 = bitsOf (ksRefDigest seed i) := by
  have hlen : (bitsOf (ksRefDigest seed i)).length = 256 := by
    rw [bitsOf_length, ksRefDigest, sha256_length]
  refine List.ext_getElem (by rw [BitSeq.take_stream_length, hlen]) fun k hk hk' => ?_
  have hk256 : k < 256 := hlen ▸ hk'
  have hdiv : (256 * i + k) / 256 = i := by omega
  have hmod : (256 * i + k) % 256 = k := by omega
  rw [← List.getD_eq_getElem _ false hk, ← List.getD_eq_getElem _ false hk',
    BitSeq.take_stream_getD, decide_eq_true hk256, Bool.true_and, ksRef, hdiv, hmod]

/-- The first `256m` bits of KS_REF are those of the first `m` digests, in counter order (R214). -/
theorem take_ksRef (seed : List Byte) (m : Nat) :
    (BitSeq.stream (ksRef seed)).take (256 * m) =
      bitsOf ((List.range m).flatMap (ksRefDigest seed)) := by
  induction m with
  | zero => rfl
  | succ m ih =>
    rw [Nat.mul_succ, BitSeq.take_stream_add, ih, take_ksRef_digest, List.range_succ,
      List.flatMap_append, List.flatMap_singleton]
    exact List.flatMap_append.symm

/-- Settles O56: the bits are those of the digests, and regrouping them gives the digests' bytes. -/
theorem referenceKeystreamIsCounterMode : Obligations.ReferenceKeystreamIsCounterMode := by
  intro tail seed m
  rw [keystreamBytes, take_ksRef, bytesOf_bitsOf]
  rfl

end Sys2Proof.Machine
end

section
/-! SUPPORT. The checks the key-using commands share: without keys NotKeyed, else LengthError when the
operand does not fit IBUF (R406, R407, R411). -/

namespace Sys2Proof.Machine

/-- The commands that read the key store (R406). -/
def keyUsingCommands : List Instr := [.vernamEnc, .vernamDec, .aesEnc, .aesDec, .encrypt, .decrypt]

/-- A failed check is the answer of every key-using command. -/
theorem State.answer_of_keyedInput_error {s : State} {i : Instr} {e : EngineError}
    (hi : i ∈ keyUsingCommands) (h : s.keyedInput = .error e) : s.answer i = .error e := by
  simp only [keyUsingCommands, List.mem_cons, List.not_mem_nil, or_false] at hi
  obtain rfl | rfl | rfl | rfl | rfl | rfl := hi <;> simp only [State.answer, h] <;> rfl

theorem failsWith_notKeyed {i : Instr} {s : State} (hi : i ∈ keyUsingCommands)
    (hk : s.key = none) : FailsWith i s .notKeyed :=
  failsWith_of_answer (State.answer_of_keyedInput_error hi
    ((s.keyedInput_eq_error _).2 (.inl ⟨hk, rfl⟩)))

theorem failsWith_lengthError {i : Instr} {s : State} {km : KeyMaterial}
    (hi : i ∈ keyUsingCommands) (hk : s.key = some km) (hlen : s.n0 > Config.ibufSize) :
    FailsWith i s .lengthError :=
  failsWith_of_answer (State.answer_of_keyedInput_error hi
    ((s.keyedInput_eq_error _).2 (.inr ⟨Option.isSome_of_eq_some hk, hlen, rfl⟩)))

/-- With both checks passed the operands are the keys and `IBUF[0..LEN0)`. -/
theorem State.keyedInput_of_keyed {s : State} {km : KeyMaterial} (hk : s.key = some km)
    (hlen : s.n0 ≤ Config.ibufSize) : s.keyedInput = .ok (km, s.memRead 0 s.n0) :=
  (s.keyedInput_eq_ok _ _).2 ⟨hk, hlen, rfl⟩

/-- The OBUF bytes inside the output, with a default for the list's index. -/
theorem State.finish_obufByte_eq_getD (s : State) {out : List Byte} {j : Nat}
    (h : j < out.length) : (s.finish out).obufByte j = out.getD j 0 := by
  rw [State.finish_obufByte_of_lt _ h, List.getD_eq_getElem _ 0 h]

end Sys2Proof.Machine
end

section
/-! SUPPORT. The Vernam layer (43_vernam.md): its output bit by bit, its round trip (R245), and its two
commands. -/

namespace Sys2Proof.Machine

/-! ### The keystream's XOR on a byte sequence (R241, R242) -/

/-- Bit `8j + i` of the body is that bit of the operand XOR keystream bit `8j + i` (R246). -/
theorem vernamBody_getLsbD (ks : List Byte → Nat → Bool) (seed : List Byte) {p : List Byte}
    {j i : Nat} (hj : j < p.length) (hi : i < 8) :
    ((vernamBody ks seed p).getD j 0).getLsbD (7 - i) =
      ((p.getD j 0).getLsbD (7 - i) ^^ ks seed (8 * j + i)) := by
  have hbit : 8 * j + i < (bitsOf p).length := by rw [bitsOf_length]; omega
  rw [vernamBody, bytesOf_getLsbD _ _ (by simpa using hj) hi, combine_finite_stream,
    combine_finiteBits_getD opXor hbit (by simpa using hbit), bitsOf_getD p j i hi,
    BitSeq.take_stream_getD, decide_eq_true hbit, Bool.true_and, opXor_eq]

/-- XOR with the keystream is its own inverse: bit by bit the keystream cancels. -/
theorem vernamBody_vernamBody (ks : List Byte → Nat → Bool) (seed p : List Byte) :
    vernamBody ks seed (vernamBody ks seed p) = p := by
  refine List.ext_getElem (by simp) fun j hj hj' => byte_ext_of_getLsbD_sub fun i hi => ?_
  rw [← List.getD_eq_getElem _ 0 hj, ← List.getD_eq_getElem _ 0 hj',
    vernamBody_getLsbD ks seed (by simpa using hj') hi, vernamBody_getLsbD ks seed hj' hi,
    Bool.xor_assoc, Bool.xor_self, Bool.xor_false]

/-! ### The layer functions -/

/-- The ciphertext starts with the per-message key in the clear (R241). -/
theorem vernamEncBytes_getD_key (ks : List Byte → Nat → Bool) (p vk : List Byte)
    (k : Vector Byte 32) {j : Nat} (hj : j < 32) :
    (vernamEncBytes ks p vk k.toList).getD j 0 = k[j] := by
  have hk : j < k.toList.length := by rwa [Vector.length_toList]
  rw [vernamEncBytes, List.getD_append _ _ _ _ hk, List.getD_eq_getElem _ _ hk,
    Vector.getElem_toList]

/-- Behind the per-message key stands the body (R241). -/
theorem vernamEncBytes_getD_body (ks : List Byte → Nat → Bool) (p vk : List Byte)
    (k : Vector Byte 32) (j : Nat) : (vernamEncBytes ks p vk k.toList).getD (32 + j) 0 =
      (vernamBody ks (vernamSeed k.toList vk) p).getD j 0 := by
  rw [vernamEncBytes, List.getD_append_right _ _ _ _ (by simp), Vector.length_toList,
    Nat.add_sub_cancel_left]

theorem vernamDecBytes_of_short (ks : List Byte → Nat → Bool) {c : List Byte} (vk : List Byte)
    (h : c.length < 32) : vernamDecBytes ks c vk = .error .invalidCiphertext := if_pos h

theorem vernamDecBytes_of_le (ks : List Byte → Nat → Bool) {c : List Byte} (vk : List Byte)
    (h : 32 ≤ c.length) : vernamDecBytes ks c vk =
      .ok (vernamBody ks (vernamSeed (c.take 32) vk) (c.drop 32)) := if_neg (Nat.not_lt.2 h)

/-- Decryption finds the per-message key in the ciphertext and undoes the XOR (R245). -/
theorem vernamDecBytes_vernamEncBytes (ks : List Byte → Nat → Bool) (p vk : List Byte)
    {k : List Byte} (hk : k.length = 32) :
    vernamDecBytes ks (vernamEncBytes ks p vk k) vk = .ok p := by
  rw [vernamDecBytes_of_le ks vk (by simp [hk]), vernamEncBytes, List.take_left' hk,
    List.drop_left' hk, vernamBody_vernamBody]

/-- Settles O46: the round trip, and the length of a ciphertext. -/
theorem vernamRoundTrip : Obligations.VernamRoundTrip := fun ks p vk k =>
  ⟨vernamDecBytes_vernamEncBytes ks p vk.toList k.length_toList, by
    rw [vernamEncBytes_length, Vector.length_toList]⟩

/-! ### VERNAM_ENC (R243) -/

theorem State.answer_vernamEnc {s : State} {km : KeyMaterial} (hk : s.key = some km)
    (hlen : s.n0 ≤ Config.ibufSize) : s.answer .vernamEnc = .ok (vernamEncBytes Config.ks
      (s.memRead 0 s.n0) km.vernam.toList (Config.trng s.draws).toList) := by
  simp only [State.answer, State.keyedInput_of_keyed hk hlen, Except.map]

/-- Settles O15: the shared checks decide the answer, whose bytes are the draw and then the body. -/
theorem vernamEncCommand : Obligations.VernamEncCommand := by
  refine ⟨decode_encode .vernamEnc, fun s => ⟨failsWith_notKeyed (by decide), fun km hk =>
    ⟨failsWith_lengthError (by decide) hk, fun hlen => ?_⟩⟩⟩
  have hout : (vernamEncBytes Config.ks (s.memRead 0 s.n0) km.vernam.toList
      (Config.trng s.draws).toList).length = s.n0 + 32 := by
    rw [vernamEncBytes_length, State.memRead_length, Vector.length_toList, Nat.add_comm]
  refine hout ▸ succeedsWith_of_answer nofun (State.answer_vernamEnc hk hlen)
    ⟨fun j hj => ?_, fun j hj i hi => ?_⟩
  · rw [State.finish_obufByte_eq_getD _ (by omega), vernamEncBytes_getD_key _ _ _ _ hj]
  · have hn0 : j < s.n0 := hj
    rw [State.finish_obufByte_eq_getD _ (by omega), vernamEncBytes_getD_body,
      vernamBody_getLsbD _ _ (by rwa [State.memRead_length]) hi, State.memRead_getD s hn0,
      Nat.zero_add]
    rfl

/-! ### VERNAM_DEC (R244) -/

theorem State.take_memRead (s : State) (off : Nat) {m n : Nat} (h : m ≤ n) :
    (s.memRead off n).take m = s.memRead off m :=
  List.ext_getElem (by simp [h]) fun i _ _ => by simp

theorem State.drop_memRead (s : State) (off m n : Nat) :
    (s.memRead off n).drop m = s.memRead (off + m) (n - m) :=
  List.ext_getElem (by simp) fun i _ _ => by simp [Nat.add_assoc]

theorem State.answer_vernamDec {s : State} {km : KeyMaterial} (hk : s.key = some km)
    (hlen : s.n0 ≤ Config.ibufSize) : s.answer .vernamDec =
      vernamDecBytes Config.ks (s.memRead 0 s.n0) km.vernam.toList := by
  simp only [State.answer, State.keyedInput_of_keyed hk hlen, Except.bind]

/-- Of 32 bytes or more, VERNAM_DEC answers the body under the key in its operand's first 32 bytes. -/
theorem State.answer_vernamDec_of_le {s : State} {km : KeyMaterial} (hk : s.key = some km)
    (h32 : 32 ≤ s.n0) (hlen : s.n0 ≤ Config.ibufSize) : s.answer .vernamDec =
      .ok (vernamBody Config.ks (vernamSeed (s.memRead 0 32) km.vernam.toList)
        (s.memRead 32 (s.n0 - 32))) := by
  rw [State.answer_vernamDec hk hlen, vernamDecBytes_of_le _ _ (by rwa [State.memRead_length]),
    State.take_memRead s 0 h32, State.drop_memRead, Nat.zero_add]

/-- Settles O16: below the shared checks the length decides between InvalidCiphertext and the body. -/
theorem vernamDecCommand : Obligations.VernamDecCommand := by
  refine ⟨decode_encode .vernamDec, fun s => ⟨failsWith_notKeyed (by decide), fun km hk =>
    ⟨failsWith_lengthError (by decide) hk, fun hshort => failsWith_of_answer ?_,
      fun h32 hlen => ?_⟩⟩⟩
  · have hn0 : s.n0 < 32 := hshort
    have hfits : s.n0 ≤ Config.ibufSize := by have := Config.ibufSize_ge; omega
    rw [State.answer_vernamDec hk hfits, vernamDecBytes_of_short]
    rwa [State.memRead_length]
  · have hout : (vernamBody Config.ks (vernamSeed (s.memRead 0 32) km.vernam.toList)
        (s.memRead 32 (s.n0 - 32))).length = s.n0 - 32 := by
      rw [vernamBody_length, State.memRead_length]
    refine hout ▸ succeedsWith_of_answer nofun (State.answer_vernamDec_of_le hk h32 hlen)
      fun j hj i hi => ?_
    rw [hout] at hj
    rw [State.finish_obufByte_eq_getD _ (by omega),
      vernamBody_getLsbD _ _ (by rwa [State.memRead_length]) hi, State.memRead_getD s hj,
      State.memRead_zero]
    rfl

end Sys2Proof.Machine
end

section
/-! SUPPORT. The S-boxes (R273, R274): each table against the map it stands for. -/

namespace Sys2Proof.Machine

/-- The affine map of R273. -/
def affineMap (b : Byte) : Byte :=
  b ^^^ b.rotateLeft 1 ^^^ b.rotateLeft 2 ^^^ b.rotateLeft 3 ^^^ b.rotateLeft 4 ^^^ 0x63

/-- The inverse of the affine map. -/
def affineInverse (y : Byte) : Byte :=
  y.rotateLeft 1 ^^^ y.rotateLeft 3 ^^^ y.rotateLeft 6 ^^^ 0x05

theorem affineMap_affineInverse : ∀ y : Byte, affineMap (affineInverse y) = y := by decide +kernel

/-- The second table inverts the first, entry by entry (R274). -/
theorem invSbox_sbox : ∀ x : Byte, invSbox (sbox x) = x := by decide +kernel

/-- Every entry of the S-box but the first, taken back through the affine map, is a field inverse. -/
theorem gmul_affineInverse_sbox : ∀ x : Byte, x ≠ 0 → gmul x (affineInverse (sbox x)) = 0x01 := by
  decide +kernel

/-- Settles O47: the field inverse of `x` is its S-box entry taken back through the affine map. -/
theorem sBoxIsInverseThenAffine : Obligations.SBoxIsInverseThenAffine := by
  refine fun x => ⟨invSbox_sbox x, affineInverse (sbox x), ?_,
    (affineMap_affineInverse (sbox x)).symm⟩
  by_cases hx : x = 0
  · exact .inl ⟨hx, by subst hx; decide⟩
  · exact .inr (gmul_affineInverse_sbox x hx)

end Sys2Proof.Machine
end

section
/-! SUPPORT. The cipher and the inverse cipher (R275, R278, R279): each round transformation undone, then
the rounds. -/

namespace Sys2Proof.Machine

/-! ### SubBytes, ShiftRows and AddRoundKey (R275) -/

theorem invSubBytes_subBytes (s : Block) : invSubBytes (subBytes s) = s :=
  Block.ext_cell fun r c hr hc => by
    rw [invSubBytes, Block.cell_ofCells _ _ _ hr hc, subBytes, Block.cell_ofCells _ _ _ hr hc,
      invSbox_sbox]

theorem invShiftRows_shiftRows (s : Block) : invShiftRows (shiftRows s) = s :=
  Block.ext_cell fun r c hr hc => by
    rw [invShiftRows, Block.cell_ofCells _ _ _ hr hc, shiftRows,
      Block.cell_ofCells _ _ _ hr (Nat.mod_lt _ (by decide)),
      show ((c + 4 - r) % 4 + r) % 4 = c by omega]

theorem addRoundKey_addRoundKey (w : List AesWord) (i : Nat) (s : Block) :
    addRoundKey w i (addRoundKey w i s) = s :=
  Block.ext_cell fun r c hr hc => by
    rw [addRoundKey, Block.cell_ofCells _ _ _ hr hc, addRoundKey, Block.cell_ofCells _ _ _ hr hc,
      BitVec.xor_assoc, BitVec.xor_self, BitVec.xor_zero]

/-! ### MixColumns: both matrices are circulant, so one row of each says all (R275) -/

/-- Row 0 of the matrix of MixColumns. -/
def mixRow (a0 a1 a2 a3 : Byte) : Byte := gmul 0x02 a0 ^^^ gmul 0x03 a1 ^^^ a2 ^^^ a3

/-- Row 0 of the matrix of InvMixColumns. -/
def invMixRow (a0 a1 a2 a3 : Byte) : Byte :=
  gmul 0x0e a0 ^^^ gmul 0x0b a1 ^^^ gmul 0x0d a2 ^^^ gmul 0x09 a3

theorem mixColumns_cell (s : Block) {r c : Nat} (hr : r < 4) (hc : c < 4) :
    (mixColumns s).cell r c = mixRow (s.cell r c) (s.cell ((r + 1) % 4) c) (s.cell ((r + 2) % 4) c)
      (s.cell ((r + 3) % 4) c) := by
  rw [mixColumns, Block.cell_ofCells _ _ _ hr hc]
  interval_cases r <;> simp only [mixRow, Nat.reduceAdd, Nat.reduceMod] <;> ac_rfl

theorem invMixColumns_cell (s : Block) {r c : Nat} (hr : r < 4) (hc : c < 4) :
    (invMixColumns s).cell r c = invMixRow (s.cell r c) (s.cell ((r + 1) % 4) c)
      (s.cell ((r + 2) % 4) c) (s.cell ((r + 3) % 4) c) := by
  rw [invMixColumns, Block.cell_ofCells _ _ _ hr hc]
  interval_cases r <;> simp only [invMixRow, Nat.reduceAdd, Nat.reduceMod] <;> ac_rfl

theorem invMixRow_xor (a0 a1 a2 a3 b0 b1 b2 b3 : Byte) :
    invMixRow (a0 ^^^ b0) (a1 ^^^ b1) (a2 ^^^ b2) (a3 ^^^ b3) =
      invMixRow a0 a1 a2 a3 ^^^ invMixRow b0 b1 b2 b3 := by
  simp only [invMixRow, gmul_xor]
  ac_rfl

/-- Row 0 of InvMixColumns on the four columns of MixColumns is row 0 of the identity matrix. -/
theorem invMixRow_columns : ∀ x : Byte,
    invMixRow (gmul 0x02 x) x x (gmul 0x03 x) = x ∧
    invMixRow (gmul 0x03 x) (gmul 0x02 x) x x = 0#8 ∧
    invMixRow x (gmul 0x03 x) (gmul 0x02 x) x = 0#8 ∧
    invMixRow x x (gmul 0x03 x) (gmul 0x02 x) = 0#8 := by
  decide +kernel

/-- Row 0 of the product of the two matrices: by linearity each byte of the column counts for itself. -/
theorem invMixRow_mixRow (a0 a1 a2 a3 : Byte) :
    invMixRow (mixRow a0 a1 a2 a3) (mixRow a1 a2 a3 a0) (mixRow a2 a3 a0 a1)
      (mixRow a3 a0 a1 a2) = a0 := by
  obtain ⟨h0, -, -, -⟩ := invMixRow_columns a0
  obtain ⟨-, h1, -, -⟩ := invMixRow_columns a1
  obtain ⟨-, -, h2, -⟩ := invMixRow_columns a2
  obtain ⟨-, -, -, h3⟩ := invMixRow_columns a3
  calc
    _ = invMixRow (gmul 0x02 a0) a0 a0 (gmul 0x03 a0) ^^^
          invMixRow (gmul 0x03 a1) (gmul 0x02 a1) a1 a1 ^^^
          invMixRow a2 (gmul 0x03 a2) (gmul 0x02 a2) a2 ^^^
          invMixRow a3 a3 (gmul 0x03 a3) (gmul 0x02 a3) := by
      simp only [← invMixRow_xor, mixRow]
      congr 1 <;> ac_rfl
    _ = a0 := by rw [h0, h1, h2, h3, BitVec.xor_zero, BitVec.xor_zero, BitVec.xor_zero]

theorem invMixColumns_mixColumns (s : Block) : invMixColumns (mixColumns s) = s :=
  Block.ext_cell fun r c hr hc => by
    have hcell (i : Nat) := mixColumns_cell s (Nat.mod_lt (r + i) (by decide : 0 < 4)) hc
    rw [invMixColumns_cell _ hr hc, mixColumns_cell s hr hc, hcell, hcell, hcell]
    interval_cases r <;> exact invMixRow_mixRow _ _ _ _

/-! ### The rounds (R278, R279) -/

/-- The last of the full rounds peeled off; the definition peels off the first. -/
theorem cipherRounds_succ (w : List AesWord) (n i : Nat) (s : Block) :
    cipherRounds w (n + 1) i s =
      addRoundKey w (i + n) (mixColumns (shiftRows (subBytes (cipherRounds w n i s)))) := by
  induction n generalizing i s with
  | zero => rfl
  | succ n ih => rw [cipherRounds, ih, cipherRounds, Nat.add_right_comm, Nat.add_assoc i n 1]

/-- The inverse rounds begin inside a round, behind SubBytes and ShiftRows, and end so too. -/
theorem invCipherRounds_cipherRounds (w : List AesWord) (n : Nat) (s : Block) :
    invCipherRounds w n (shiftRows (subBytes (cipherRounds w n 1 s))) = shiftRows (subBytes s) := by
  induction n with
  | zero => rfl
  | succ n ih =>
    rw [invCipherRounds, invShiftRows_shiftRows, invSubBytes_subBytes, cipherRounds_succ,
      Nat.add_comm 1 n, addRoundKey_addRoundKey, invMixColumns_mixColumns, ih]

theorem invCipher_cipher (w : List AesWord) (x : Block) : invCipher w (cipher w x) = x := by
  rw [invCipher, cipher, addRoundKey_addRoundKey, invCipherRounds_cipherRounds,
    invShiftRows_shiftRows, invSubBytes_subBytes, addRoundKey_addRoundKey]

/-- Settles O48: the inverse cipher undoes the cipher with any key schedule. -/
theorem inverseCipherUndoesCipher : Obligations.InverseCipherUndoesCipher :=
  fun k => invCipher_cipher (keySchedule k)

/-! ### Known answers (R280, R215) -/

/-- The AES-256 vector of R280. -/
theorem aesE_known : aesE ⟨⟨(List.range 32).map (BitVec.ofNat 8)⟩, rfl⟩
      (Block.ofFn fun i => BitVec.ofNat 8 (17 * i)) =
    ⟨#[0x8e, 0xa2, 0xb7, 0xca, 0x51, 0x67, 0x45, 0xbf, 0xea, 0xfc, 0x49, 0x90, 0x4b, 0x49, 0x60,
      0x89], rfl⟩ := by
  decide +kernel

/-- Settles O55: the kernel evaluates the cipher and SHA-256, and D_K undoes E_K. -/
theorem knownAnswers : Obligations.KnownAnswers :=
  ⟨aesE_known, aesE_known ▸ inverseCipherUndoesCipher _ _, by decide +kernel⟩

end Sys2Proof.Machine
end

section
/-! SUPPORT. CBC (R283, R284) on a block followed by the rest, and its round trip. -/

namespace Sys2Proof.Machine

/-! ### XOR of blocks -/

theorem Block.byte_eq_getElem (b : Block) {i : Nat} (h : i < 16) : b.byte i = b[i] := by
  rw [Block.byte, List.getD_eq_getElem _ _ (by rwa [Vector.length_toList]), Vector.getElem_toList]

theorem blockXor_byte (a b : Block) {i : Nat} (h : i < 16) :
    (blockXor a b).byte i = a.byte i ^^^ b.byte i := Block.byte_ofFn _ i h

theorem blockXor_getElem (a b : Block) (i : Nat) (h : i < 16) :
    (blockXor a b)[i] = a[i] ^^^ b[i] := by
  simpa only [Block.byte_eq_getElem _ h] using blockXor_byte a b h

theorem blockXor_blockXor (a b : Block) : blockXor (blockXor a b) b = a :=
  Block.ext_byte fun i hi => by
    rw [blockXor_byte _ _ hi, blockXor_byte _ _ hi, BitVec.xor_assoc, BitVec.xor_self,
      BitVec.xor_zero]

/-! ### A block and the rest -/

/-- Whole blocks are nothing, or a block and whole blocks. -/
theorem blocks_induction {motive : List Byte → Prop} (nil : motive [])
    (append : ∀ (p : Block) rest, motive rest → motive (p.toList ++ rest)) (x : List Byte)
    (h : x.length % 16 = 0) : motive x := by
  by_cases hx : x.length = 0
  · rwa [List.eq_nil_of_length_eq_zero hx]
  · have hp : (x.take 16).length = 16 := by rw [List.length_take]; omega
    have hrest : (x.drop 16).length % 16 = 0 := by rw [List.length_drop]; omega
    have := append ⟨(x.take 16).toArray, hp⟩ _ (blocks_induction nil append _ hrest)
    rwa [Vector.toList_mk, List.toList_toArray, List.take_append_drop] at this
termination_by x.length
decreasing_by rw [List.length_drop]; omega

/-- The first block of a sequence is read off it, and the rest by blocks. -/
theorem blocksOf_append (p : Block) (rest : List Byte) :
    blocksOf ((p.toList ++ rest).length / 16) (p.toList ++ rest) =
      p :: blocksOf (rest.length / 16) rest := by
  have hlen : (p.toList ++ rest).length / 16 = rest.length / 16 + 1 := by
    rw [List.length_append, Vector.length_toList]
    omega
  have hfirst : Block.ofFn (fun i => (p.toList ++ rest).getD i 0) = p :=
    Block.ext_byte fun i hi => by
      rw [Block.byte_ofFn _ _ hi, List.getD_append _ _ _ _ (by rwa [Vector.length_toList])]
      rfl
  rw [hlen, blocksOf, hfirst, List.drop_left' p.length_toList]

theorem bytesOfBlocks_cons (b : Block) (bs : List Block) :
    bytesOfBlocks (b :: bs) = b.toList ++ bytesOfBlocks bs := List.flatMap_cons

theorem cbcE_nil (k : Vector Byte 32) (iv : Block) : cbcE k iv [] = [] := rfl

theorem cbcD_nil (k : Vector Byte 32) (iv : Block) : cbcD k iv [] = [] := rfl

theorem cbcE_append (k : Vector Byte 32) (iv p : Block) (rest : List Byte) :
    cbcE k iv (p.toList ++ rest) =
      (aesE k (blockXor p iv)).toList ++ cbcE k (aesE k (blockXor p iv)) rest := by
  rw [cbcE, blocksOf_append, cbcEncBlocks, bytesOfBlocks_cons, cbcE]

theorem cbcD_append (k : Vector Byte 32) (iv c : Block) (rest : List Byte) :
    cbcD k iv (c.toList ++ rest) = (blockXor (aesD k c) iv).toList ++ cbcD k c rest := by
  rw [cbcD, blocksOf_append, cbcDecBlocks, bytesOfBlocks_cons, cbcD]

/-- Decryption gives each block back before it goes on with the block of ciphertext both chain. -/
theorem cbcD_cbcE (k : Vector Byte 32) (iv : Block) {x : List Byte} (h : x.length % 16 = 0) :
    cbcD k iv (cbcE k iv x) = x := by
  refine blocks_induction (motive := fun x => ∀ iv, cbcD k iv (cbcE k iv x) = x)
    (fun iv => by rw [cbcE_nil, cbcD_nil]) (fun p rest ih iv => ?_) x h iv
  rw [cbcE_append, cbcD_append, inverseCipherUndoesCipher, blockXor_blockXor, ih]

/-- Settles O49: the round trip, and the chaining it rests on. -/
theorem cbcDecryptionUndoesEncryption : Obligations.CbcDecryptionUndoesEncryption :=
  ⟨fun k iv x h => ⟨cbcD_cbcE k iv h, by rw [cbcE_length]; omega⟩, blockXor_getElem,
    fun k iv => ⟨cbcE_nil k iv, cbcD_nil k iv⟩, cbcE_append, cbcD_append⟩

end Sys2Proof.Machine
end

section
/-! SUPPORT. PKCS#7 padding and its validation (R281, R282). -/

namespace Sys2Proof.Machine

theorem validlyPadded_iff {x : List Byte} : validlyPadded x = true ↔
    1 ≤ padLength x ∧ padLength x ≤ 16 ∧
      ∀ b ∈ x.drop (x.length - padLength x), b.toNat = padLength x := by
  simp [validlyPadded, and_assoc]

/-- Of a sequence of at least a block, validity in terms of the bytes counted from the end. -/
theorem validlyPadded_iff_getD {x : List Byte} (h : 16 ≤ x.length) : validlyPadded x = true ↔
    1 ≤ padLength x ∧ padLength x ≤ 16 ∧
      ∀ j, j < padLength x → (x.getD (x.length - 1 - j) 0).toNat = padLength x := by
  rw [validlyPadded_iff]
  refine and_congr_right fun _ => and_congr_right fun hp => ?_
  constructor
  · intro hall j hj
    refine hall _ (List.mem_drop_iff_getElem.2 ⟨padLength x - 1 - j, by omega, ?_⟩)
    rw [List.getD_eq_getElem _ _ (by omega)]
    congr 1
    omega
  · intro hall b hb
    obtain ⟨i, hi, rfl⟩ := List.mem_drop_iff_getElem.1 hb
    have := hall (padLength x - 1 - i) (by omega)
    rwa [show x.length - 1 - (padLength x - 1 - i) = x.length - padLength x + i by omega,
      List.getD_eq_getElem _ _ (by omega)] at this

/-- The bytes of valid padding are those R281 appends. -/
theorem drop_of_validlyPadded {x : List Byte} (h : 16 ≤ x.length) (hv : validlyPadded x = true) :
    x.drop (x.length - padLength x) =
      List.replicate (padLength x) (BitVec.ofNat 8 (padLength x)) := by
  obtain ⟨-, hhi, hall⟩ := validlyPadded_iff.1 hv
  refine List.eq_replicate_iff.2 ⟨by rw [List.length_drop]; omega, fun b hb => ?_⟩
  rw [← hall b hb, BitVec.ofNat_toNat, BitVec.setWidth_eq]

/-- A message with `n` bytes `n` appended claims that padding length. -/
theorem padLength_append_replicate (m : List Byte) {n : Nat} (hlo : 1 ≤ n) (hhi : n ≤ 16) :
    padLength (m ++ List.replicate n (BitVec.ofNat 8 n)) = n := by
  rw [padLength, List.length_append, List.length_replicate,
    List.getD_append_right _ _ _ _ (by omega), List.getD_replicate _ (by omega),
    BitVec.toNat_ofNat]
  omega

theorem padLength_pkcsPad (m : List Byte) : padLength (pkcsPad m) = 16 - m.length % 16 :=
  padLength_append_replicate m (by omega) (by omega)

/-- The padding of a padded message starts where the message ends. -/
theorem length_pkcsPad_sub_padLength (m : List Byte) :
    (pkcsPad m).length - padLength (pkcsPad m) = m.length := by
  rw [padLength_pkcsPad, pkcsPad_length]
  omega

theorem validlyPadded_pkcsPad (m : List Byte) : validlyPadded (pkcsPad m) = true := by
  rw [validlyPadded_iff, length_pkcsPad_sub_padLength, padLength_pkcsPad, pkcsPad, List.drop_left]
  refine ⟨by omega, by omega, fun b hb => ?_⟩
  rw [List.eq_of_mem_replicate hb, BitVec.toNat_ofNat]
  omega

theorem pkcsUnpad_pkcsPad (m : List Byte) : pkcsUnpad (pkcsPad m) = m := by
  rw [pkcsUnpad, length_pkcsPad_sub_padLength, pkcsPad, List.take_left]

/-- In whole blocks the padding length is the one R281 gives the rest. -/
theorem pkcsPad_pkcsUnpad {x : List Byte} (h : 16 ≤ x.length) (h16 : x.length % 16 = 0)
    (hv : validlyPadded x = true) : pkcsPad (pkcsUnpad x) = x := by
  obtain ⟨hlo, hhi, -⟩ := validlyPadded_iff.1 hv
  have hn : 16 - (pkcsUnpad x).length % 16 = padLength x := by
    rw [pkcsUnpad, List.length_take]
    omega
  rw [pkcsPad, hn, ← drop_of_validlyPadded h hv, pkcsUnpad, List.take_append_drop]

/-- Settles O50: padding is valid and removed, and valid padding is the padding of the rest. -/
theorem paddingIsValidAndRemoved : Obligations.PaddingIsValidAndRemoved :=
  ⟨fun m => ⟨pkcsPad_length m, validlyPadded_pkcsPad m, pkcsUnpad_pkcsPad m⟩,
    fun x hne h16 => pkcsPad_pkcsUnpad (by have := List.length_pos_iff.2 hne; omega) h16⟩

end Sys2Proof.Machine
end

section
/-! SUPPORT. The AES layer (R285 to R287) and its commands AES_ENC (R290) and AES_DEC (R291). -/

namespace Sys2Proof.Machine

/-! ### The layer functions -/

theorem aesDecBytes_of_length (km : KeyMaterial) {c : List Byte}
    (h : c.length = 0 ∨ c.length % 16 ≠ 0) : aesDecBytes km c = .error .cipherIntegrityError :=
  if_pos h

/-- Of whole blocks the padding decides. -/
theorem aesDecBytes_of_blocks (km : KeyMaterial) {c : List Byte} (h0 : c.length ≠ 0)
    (h16 : c.length % 16 = 0) : aesDecBytes km c =
      if validlyPadded (cbcD km.aes km.iv c) then .ok (pkcsUnpad (cbcD km.aes km.iv c))
      else .error .cipherIntegrityError :=
  if_neg (not_or.2 ⟨h0, not_not.2 h16⟩)

/-- CBC gives the padded message back, whose padding is valid (R287). -/
theorem aesDecBytes_aesEncBytes (km : KeyMaterial) (m : List Byte) :
    aesDecBytes km (aesEncBytes km m) = .ok m := by
  have hcbc : cbcD km.aes km.iv (aesEncBytes km m) = pkcsPad m :=
    cbcD_cbcE _ _ (by rw [pkcsPad_length]; omega)
  rw [aesDecBytes_of_blocks km (by rw [aesEncBytes_length]; omega)
    (by rw [aesEncBytes_length]; omega), hcbc, if_pos (validlyPadded_pkcsPad m), pkcsUnpad_pkcsPad]

/-- Settles O51: the round trip, and at least one byte of padding removed. -/
theorem aesLayerRoundTrip : Obligations.AesLayerRoundTrip := by
  refine fun km => ⟨aesDecBytes_aesEncBytes km, fun c out h => ?_⟩
  obtain ⟨p, hlo, -, hlen⟩ := aesDecBytes_length h
  omega

/-! ### AES_ENC (R290) -/

theorem Outputs.finish (s : State) (out : List Byte) : Outputs out (s.finish out) :=
  fun _ => s.finish_obufByte_of_lt

theorem State.answer_aesEnc {s : State} {km : KeyMaterial} (hk : s.key = some km)
    (hlen : s.n0 ≤ Config.ibufSize) :
    s.answer .aesEnc = .ok (aesEncBytes km (s.memRead 0 s.n0)) := by
  simp only [State.answer, State.keyedInput_of_keyed hk hlen, Except.map]

/-- The padded operand of AES_ENC, with the padding R281 gives it. -/
theorem State.pkcsPad_memRead (s : State) : pkcsPad (s.memRead 0 s.n0) =
    (List.range s.len0.toNat).map s.ibufByte ++
      List.replicate (16 - s.len0.toNat % 16) (BitVec.ofNat 8 (16 - s.len0.toNat % 16)) := by
  rw [pkcsPad, State.memRead_length, State.memRead_zero]
  rfl

/-- Settles O17: the shared checks decide the answer, which encrypts the padded operand. -/
theorem aesEncCommand : Obligations.AesEncCommand := by
  refine ⟨decode_encode .aesEnc, fun s => ⟨failsWith_notKeyed (by decide), fun km hk =>
    ⟨failsWith_lengthError (by decide) hk, fun hlen => ?_⟩⟩⟩
  have hout : (aesEncBytes km (s.memRead 0 s.n0)).length = 16 * (s.len0.toNat / 16 + 1) := by
    rw [aesEncBytes_length, State.memRead_length]
    rfl
  rw [← hout, ← State.pkcsPad_memRead]
  exact succeedsWith_of_answer nofun (State.answer_aesEnc hk hlen) (Outputs.finish s _)

/-! ### AES_DEC (R291) -/

theorem State.answer_aesDec {s : State} {km : KeyMaterial} (hk : s.key = some km)
    (hlen : s.n0 ≤ Config.ibufSize) : s.answer .aesDec = aesDecBytes km (s.memRead 0 s.n0) := by
  simp only [State.answer, State.keyedInput_of_keyed hk hlen, Except.bind]

/-- On an operand of whole blocks AES_DEC's answer turns on the padding of the decrypted data. -/
theorem State.answer_aesDec_of_blocks {s : State} {km : KeyMaterial} (hk : s.key = some km)
    (hlen : s.n0 ≤ Config.ibufSize) (h0 : s.n0 ≠ 0) (h16 : s.n0 % 16 = 0) {x : List Byte}
    (hx : x = cbcD km.aes km.iv (s.memRead 0 s.n0)) : s.answer .aesDec =
      if validlyPadded x then .ok (pkcsUnpad x) else .error .cipherIntegrityError := by
  rw [State.answer_aesDec hk hlen, aesDecBytes_of_blocks km (by rwa [State.memRead_length])
    (by rwa [State.memRead_length]), hx]

/-- Settles O18: below the shared checks the length decides, then the padding of the decrypted data. -/
theorem aesDecCommand : Obligations.AesDecCommand := by
  refine ⟨decode_encode .aesDec, fun s => ⟨failsWith_notKeyed (by decide), fun km hk =>
    ⟨failsWith_lengthError (by decide) hk, fun hlen hbad => failsWith_of_answer ?_,
      fun hlen h0 h16 x p hx hp => ?_⟩⟩⟩
  · rw [State.answer_aesDec hk hlen, aesDecBytes_of_length]
    rwa [State.memRead_length]
  · have hans := State.answer_aesDec_of_blocks hk hlen h0 h16
      (hx.trans (by rw [State.memRead_zero]; rfl))
    have hxlen : x.length = s.len0.toNat := by
      rw [hx, cbcD_length, List.length_map, List.length_range]
      omega
    rw [← hxlen] at h0 h16 hp ⊢
    obtain rfl : p = padLength x := hp
    rw [← validlyPadded_iff_getD (by omega)]
    refine ⟨fun hv => ?_, fun hv => failsWith_of_answer (hans.trans (if_neg hv))⟩
    have hout : (pkcsUnpad x).length = x.length - padLength x := by
      rw [pkcsUnpad, List.length_take, Nat.min_eq_left (Nat.sub_le _ _)]
    change SucceedsWith .aesDec s _ (Outputs (pkcsUnpad x))
    rw [← hout]
    exact succeedsWith_of_answer nofun (hans.trans (if_pos hv)) (Outputs.finish s _)

end Sys2Proof.Machine
end

section
/-! SUPPORT. The orchestrator (45_crypter.md): its round trip (R324), the lengths of ciphertexts (R326) and
when two of them differ (R327), and its commands ENCRYPT (R322) and DECRYPT (R323). -/

namespace Sys2Proof.Machine

/-! ### The functions `Encrypt` and `Decrypt` (R320, R321) -/

/-- The AES stage has one error only (R286). -/
theorem eq_cipherIntegrityError_of_aesDecBytes {km : KeyMaterial} {c : List Byte} {e : EngineError}
    (h : aesDecBytes km c = .error e) : e = .cipherIntegrityError := by
  unfold aesDecBytes at h
  split at h
  · cases h; rfl
  · split at h
    · cases h
    · cases h; rfl

theorem decryptBytes_of_error (ks : List Byte → Nat → Bool) {km : KeyMaterial} {c : List Byte}
    {e : EngineError} (h : aesDecBytes km c = .error e) :
    decryptBytes ks km c = .error .cipherIntegrityError := by
  rw [← eq_cipherIntegrityError_of_aesDecBytes h, decryptBytes, h]

theorem decryptBytes_of_ok (ks : List Byte → Nat → Bool) {km : KeyMaterial} {c v : List Byte}
    (h : aesDecBytes km c = .ok v) :
    decryptBytes ks km c = vernamDecBytes ks v km.vernam.toList := by
  rw [decryptBytes, h]

/-- Each layer gives back what it was given, the AES layer first (R321). -/
theorem decryptBytes_encryptBytes (ks : List Byte → Nat → Bool) (km : KeyMaterial) (p : List Byte)
    (k : Vector Byte 32) : decryptBytes ks km (encryptBytes ks km p k.toList) = .ok p := by
  rw [encryptBytes, decryptBytes_of_ok ks (aesDecBytes_aesEncBytes km _),
    vernamDecBytes_vernamEncBytes ks p _ k.length_toList]

/-- Settles O52: the two layers' round trips, composed. -/
theorem decryptInvertsEncrypt : Obligations.DecryptInvertsEncrypt := decryptBytes_encryptBytes

/-- The AES layer loses nothing, since it can be undone (R287). -/
theorem aesEncBytes_injective (km : KeyMaterial) : Function.Injective (aesEncBytes km) :=
  fun m m' h => Except.ok.inj <| by
    rw [← aesDecBytes_aesEncBytes km m, h, aesDecBytes_aesEncBytes]

/-- A Vernam ciphertext carries its per-message key in the clear (R241). -/
theorem eq_of_vernamEncBytes_eq {ks : List Byte → Nat → Bool} {p p' vk vk' : List Byte}
    {k k' : Vector Byte 32}
    (h : vernamEncBytes ks p vk k.toList = vernamEncBytes ks p' vk' k'.toList) : k = k' :=
  Vector.toList_inj.1 (List.append_inj_left h (k.length_toList.trans k'.length_toList.symm))

/-- Settles O54: the AES layer is injective, and the Vernam ciphertexts inside start with the draws. -/
theorem ciphertextsDifferExactlyWhenDrawsDiffer :
    Obligations.CiphertextsDifferExactlyWhenDrawsDiffer := fun _ km _ _ _ =>
  ⟨fun h => eq_of_vernamEncBytes_eq (aesEncBytes_injective km h), fun h => h ▸ rfl⟩

/-- Settles O21: the length of a ciphertext is known, and each stage of a decryption says how much
shorter its output is than its input. -/
theorem ciphertextLengths : Obligations.CiphertextLengths := by
  refine fun ks km => ⟨fun p k => ?_, fun c v hv => ?_⟩
  · rw [encryptBytes_length]
    omega
  · obtain ⟨p, hlo, hhi, hpad⟩ := aesDecBytes_length hv
    rw [decryptBytes_of_ok ks hv]
    refine ⟨fun hc => ?_, fun out hout => ⟨p, hlo, hhi, hpad, ?_⟩⟩
    · have hshort : v.length < 32 := by omega
      exact ⟨hshort, vernamDecBytes_of_short ks _ hshort⟩
    · rw [vernamDecBytes_length hout, hpad]

/-! ### ENCRYPT (R322) -/

theorem State.answer_encrypt {s : State} {km : KeyMaterial} (hk : s.key = some km)
    (hlen : s.n0 ≤ Config.ibufSize) : s.answer .encrypt = .ok (encryptBytes Config.ks km
      (s.memRead 0 s.n0) (Config.trng s.draws).toList) := by
  simp only [State.answer, State.keyedInput_of_keyed hk hlen, Except.map]

/-- Settles O19: the shared checks decide the answer, the AES layer over the Vernam layer. -/
theorem encryptCommand : Obligations.EncryptCommand := by
  refine ⟨decode_encode .encrypt, fun s => ⟨failsWith_notKeyed (by decide), fun km hk =>
    ⟨failsWith_lengthError (by decide) hk, fun hlen => ?_⟩⟩⟩
  have hout : (encryptBytes Config.ks km (s.memRead 0 s.n0) (Config.trng s.draws).toList).length =
      16 * ((s.len0.toNat + 32) / 16 + 1) := by
    rw [encryptBytes_length, State.memRead_length]
    rfl
  rw [← hout, ← State.memRead_zero]
  exact succeedsWith_of_answer nofun (State.answer_encrypt hk hlen) (Outputs.finish _ _)

/-! ### DECRYPT (R323) -/

theorem State.answer_decrypt {s : State} {km : KeyMaterial} (hk : s.key = some km)
    (hlen : s.n0 ≤ Config.ibufSize) :
    s.answer .decrypt = decryptBytes Config.ks km (s.memRead 0 s.n0) := by
  simp only [State.answer, State.keyedInput_of_keyed hk hlen, Except.bind]

/-- Settles O20: below the shared checks the AES stage decides, then the length of its output. -/
theorem decryptCommand : Obligations.DecryptCommand := by
  refine ⟨decode_encode .decrypt, fun s => ⟨failsWith_notKeyed (by decide), fun km hk =>
    ⟨failsWith_lengthError (by decide) hk, fun hlen => ?_⟩⟩⟩
  have hans := State.answer_decrypt hk hlen
  rw [← State.memRead_zero]
  refine ⟨fun e he => failsWith_of_answer (hans.trans (decryptBytes_of_error _ he)),
    fun v hv => ?_⟩
  replace hans := hans.trans (decryptBytes_of_ok _ hv)
  refine ⟨fun hshort => failsWith_of_answer (hans.trans (vernamDecBytes_of_short _ _ hshort)),
    fun h32 => ?_⟩
  rw [← List.length_drop, ← vernamBody_length Config.ks (v.take 32 ++ km.vernam.toList)]
  exact succeedsWith_of_answer nofun (hans.trans (vernamDecBytes_of_le _ _ h32))
    (Outputs.finish _ _)

/-! ### ENCRYPT, copy, DECRYPT (R324) -/

/-- IBUF holding the bytes of `out` is read as `out`. -/
theorem State.memRead_zero_of_ibufByte {s : State} {out : List Byte}
    (h : ∀ j (hj : j < out.length), s.ibufByte j = out[j]) : s.memRead 0 out.length = out :=
  List.ext_getElem (s.memRead_length 0 _) fun j _ hj => by
    rw [State.memRead_getElem, Nat.zero_add, h j hj]

/-- Settles O53: the operand of DECRYPT is ENCRYPT's output, which it decrypts. -/
theorem encryptThenDecryptCommands : Obligations.EncryptThenDecryptCommands := by
  intro s t s' km hk hlen ht hfits hk' hlen0 hcopy
  have henc := State.answer_encrypt hk hlen
  rw [exec_of_answer_ok henc, Host.Outcome.next.injEq] at ht
  subst ht
  have hsize := State.finish_outLen_toNat (s.prepared .encrypt) (State.answer_length_le henc)
  rw [hsize] at hfits hcopy
  have hn0 : s'.n0 = _ := (congrArg BitVec.toNat hlen0).trans hsize
  have hcopied := State.memRead_zero_of_ibufByte fun j hj =>
    (hcopy j hj).trans (State.finish_obufByte_of_lt _ hj)
  have hdec := State.answer_decrypt hk' (hn0.trans_le hfits)
  rw [hn0, hcopied, decryptBytes_encryptBytes] at hdec
  have hsucc := succeedsWith_of_answer (i := .decrypt) nofun hdec (Outputs.finish _ _)
  rwa [State.memRead_length, State.memRead_zero] at hsucc

end Sys2Proof.Machine
end

section
/-! SUPPORT. UTF-8 (R353): the first scalar value of a byte sequence is the one whose encoding it begins
with. -/

namespace Sys2Proof.Machine

/-! ### Scalar values and the bytes that carry them -/

/-- A code point is decoded exactly when it is a scalar value in the range of its number of bytes. -/
theorem utf8Scalar_eq_some_iff {lo hi n : Nat} {c : Char} :
    utf8Scalar lo hi n = some c ↔ c.toNat = n ∧ lo ≤ n ∧ n < hi := by
  rw [utf8Scalar, Option.ite_none_right_eq_some, Option.some.injEq]
  constructor
  · rintro ⟨⟨hlo, hhi, hvalid⟩, rfl⟩
    exact ⟨by rw [Char.toNat_ofNat, if_pos hvalid], hlo, hhi⟩
  · rintro ⟨rfl, hlo, hhi⟩
    exact ⟨⟨hlo, hhi, c.valid⟩, c.ofNat_toNat⟩

theorem map_utf8Scalar_eq_some_iff {lo hi n : Nat} {c : Char} {r r' : List Byte} :
    (utf8Scalar lo hi n).map (·, r) = some (c, r') ↔ (c.toNat = n ∧ lo ≤ n ∧ n < hi) ∧ r = r' := by
  rw [← utf8Scalar_eq_some_iff]
  simp

/-- Every scalar value is below the end of the code space (R353). -/
theorem char_toNat_lt (c : Char) : c.toNat < 0x110000 :=
  c.valid.elim (·.trans (by decide)) (·.2)

theorem utf8Byte_toNat {lead n shift : Nat} (h : lead + n / 2 ^ shift % 64 < 256) :
    (utf8Byte lead n shift).toNat = lead + n / 2 ^ shift % 64 :=
  Nat.mod_eq_of_lt h

theorem eq_utf8Byte {b : Byte} {lead n shift : Nat} (h : b.toNat = lead + n / 2 ^ shift % 64) :
    b = utf8Byte lead n shift :=
  BitVec.eq_of_toNat_eq (h.trans (utf8Byte_toNat (h ▸ b.isLt)).symm)

theorem utf8Cont_iff {b : Byte} : utf8Cont b = true ↔ b.toNat / 64 = 2 := beq_iff_eq

/-- The decoder goes on past a continuation byte. -/
theorem utf8Cont_of_not_not {b : Byte} (h : ¬ (!utf8Cont b) = true) : b.toNat / 64 = 2 :=
  utf8Cont_iff.1 (by simpa using h)

/-! ### The encoding of one scalar value -/

section
variable {c : Char}

theorem utf8EncodeChar_one (h : c.toNat < 0x80) : utf8EncodeChar c = [BitVec.ofNat 8 c.toNat] :=
  if_pos h

theorem utf8EncodeChar_two (hlo : 0x80 ≤ c.toNat) (hhi : c.toNat < 0x800) :
    utf8EncodeChar c = [utf8Byte 0xC0 c.toNat 6, utf8Byte 0x80 c.toNat 0] :=
  (if_neg hlo.not_gt).trans (if_pos hhi)

theorem utf8EncodeChar_three (hlo : 0x800 ≤ c.toNat) (hhi : c.toNat < 0x10000) :
    utf8EncodeChar c =
      [utf8Byte 0xE0 c.toNat 12, utf8Byte 0x80 c.toNat 6, utf8Byte 0x80 c.toNat 0] := by
  have h1 : ¬ c.toNat < 0x80 := by omega
  simp only [utf8EncodeChar, h1, hlo.not_gt, hhi, if_true, if_false]

theorem utf8EncodeChar_four (hlo : 0x10000 ≤ c.toNat) :
    utf8EncodeChar c = [utf8Byte 0xF0 c.toNat 18, utf8Byte 0x80 c.toNat 12,
      utf8Byte 0x80 c.toNat 6, utf8Byte 0x80 c.toNat 0] := by
  have h1 : ¬ c.toNat < 0x80 := by omega
  have h2 : ¬ c.toNat < 0x800 := by omega
  simp only [utf8EncodeChar, h1, h2, hlo.not_gt, if_false]

end

/-! ### The first scalar value of a byte sequence -/

theorem utf8Next_one {b0 : Byte} (h : b0.toNat < 0x80) (r : List Byte) :
    utf8Next (b0 :: r) = (utf8Scalar 0 0x80 b0.toNat).map (·, r) := by
  simp only [utf8Next, h, if_true]

theorem utf8Next_two {b0 b1 : Byte} (h0 : b0.toNat / 32 = 6) (h1 : b1.toNat / 64 = 2)
    (r : List Byte) : utf8Next (b0 :: b1 :: r) =
      (utf8Scalar 0x80 0x800 (b0.toNat % 32 * 64 + b1.toNat % 64)).map (·, r) := by
  have hlead : ¬ b0.toNat < 0x80 := by omega
  simp [utf8Next, utf8Low, utf8Cont_iff.2 h1, hlead, h0]

theorem utf8Next_three {b0 b1 b2 : Byte} (h0 : b0.toNat / 16 = 14) (h1 : b1.toNat / 64 = 2)
    (h2 : b2.toNat / 64 = 2) (r : List Byte) : utf8Next (b0 :: b1 :: b2 :: r) =
      (utf8Scalar 0x800 0x10000
        (b0.toNat % 16 * 4096 + b1.toNat % 64 * 64 + b2.toNat % 64)).map (·, r) := by
  have hlead : ¬ b0.toNat < 0x80 := by omega
  have hlead2 : ¬ b0.toNat / 32 = 6 := by omega
  simp [utf8Next, utf8Low, utf8Cont_iff.2 h1, utf8Cont_iff.2 h2, hlead, hlead2, h0]

theorem utf8Next_four {b0 b1 b2 b3 : Byte} (h0 : b0.toNat / 8 = 30) (h1 : b1.toNat / 64 = 2)
    (h2 : b2.toNat / 64 = 2) (h3 : b3.toNat / 64 = 2) (r : List Byte) :
    utf8Next (b0 :: b1 :: b2 :: b3 :: r) =
      (utf8Scalar 0x10000 0x110000 (b0.toNat % 8 * 262144 + b1.toNat % 64 * 4096
        + b2.toNat % 64 * 64 + b3.toNat % 64)).map (·, r) := by
  have hlead : ¬ b0.toNat < 0x80 := by omega
  have hlead2 : ¬ b0.toNat / 32 = 6 := by omega
  have hlead3 : ¬ b0.toNat / 16 = 14 := by omega
  simp [utf8Next, utf8Low, utf8Cont_iff.2 h1, utf8Cont_iff.2 h2, utf8Cont_iff.2 h3, hlead, hlead2,
    hlead3, h0]

/-- The decoder reads back the encoding of a scalar value (R353), of each of the four lengths. -/
theorem utf8Next_utf8EncodeChar_append (c : Char) (r : List Byte) :
    utf8Next (utf8EncodeChar c ++ r) = some (c, r) := by
  have hmax := char_toNat_lt c
  have cont (shift : Nat) : (utf8Byte 0x80 c.toNat shift).toNat = 0x80 + c.toNat / 2 ^ shift % 64 :=
    utf8Byte_toNat (by omega)
  have c0 := cont 0
  have c6 := cont 6
  have c12 := cont 12
  by_cases h1 : c.toNat < 0x80
  · have lead : (BitVec.ofNat 8 c.toNat).toNat = c.toNat := Nat.mod_eq_of_lt (by omega)
    rw [utf8EncodeChar_one h1, List.singleton_append, utf8Next_one (by omega),
      map_utf8Scalar_eq_some_iff]
    exact ⟨by omega, rfl⟩
  by_cases h2 : c.toNat < 0x800
  · have lead : (utf8Byte 0xC0 c.toNat 6).toNat = _ := utf8Byte_toNat (by omega)
    rw [utf8EncodeChar_two (by omega) h2, List.cons_append, List.singleton_append,
      utf8Next_two (by omega) (by omega), map_utf8Scalar_eq_some_iff]
    exact ⟨by omega, rfl⟩
  by_cases h3 : c.toNat < 0x10000
  · have lead : (utf8Byte 0xE0 c.toNat 12).toNat = _ := utf8Byte_toNat (by omega)
    rw [utf8EncodeChar_three (by omega) h3, List.cons_append, List.cons_append,
      List.singleton_append, utf8Next_three (by omega) (by omega) (by omega),
      map_utf8Scalar_eq_some_iff]
    exact ⟨by omega, rfl⟩
  · have lead : (utf8Byte 0xF0 c.toNat 18).toNat = _ := utf8Byte_toNat (by omega)
    rw [utf8EncodeChar_four (by omega), List.cons_append, List.cons_append, List.cons_append,
      List.singleton_append, utf8Next_four (by omega) (by omega) (by omega) (by omega),
      map_utf8Scalar_eq_some_iff]
    exact ⟨by omega, rfl⟩

/-- The bytes a decoded scalar value was read from are its encoding: the lead byte's high bits and the
range of the value leave no other form (R353). -/
theorem eq_append_of_utf8Next {x r : List Byte} {c : Char} (h : utf8Next x = some (c, r)) :
    x = utf8EncodeChar c ++ r := by
  unfold utf8Next at h
  split at h
  · cases h
  rename_i b0 r0
  split at h
  · obtain ⟨⟨hc, hlo, hhi⟩, rfl⟩ := map_utf8Scalar_eq_some_iff.1 h
    rw [utf8EncodeChar_one (by omega), hc, BitVec.ofNat_toNat, BitVec.setWidth_eq]
    rfl
  split at h
  · cases h
  rename_i b1 r1
  split at h
  · cases h
  rename_i hcont1
  replace hcont1 := utf8Cont_of_not_not hcont1
  split at h
  · obtain ⟨⟨hc, hlo, hhi⟩, rfl⟩ := map_utf8Scalar_eq_some_iff.1 h
    unfold utf8Low at hc hlo hhi
    rw [utf8EncodeChar_two (by omega) (by omega), ← eq_utf8Byte (b := b0) (by omega),
      ← eq_utf8Byte (b := b1) (by omega)]
    rfl
  split at h
  · cases h
  rename_i b2 r2
  split at h
  · cases h
  rename_i hcont2
  replace hcont2 := utf8Cont_of_not_not hcont2
  split at h
  · obtain ⟨⟨hc, hlo, hhi⟩, rfl⟩ := map_utf8Scalar_eq_some_iff.1 h
    unfold utf8Low at hc hlo hhi
    rw [utf8EncodeChar_three (by omega) (by omega), ← eq_utf8Byte (b := b0) (by omega),
      ← eq_utf8Byte (b := b1) (by omega), ← eq_utf8Byte (b := b2) (by omega)]
    rfl
  split at h
  · cases h
  rename_i b3 r3
  split at h
  · rename_i hlast
    obtain ⟨hcont3, hlead⟩ := hlast
    replace hcont3 := utf8Cont_iff.1 hcont3
    obtain ⟨⟨hc, hlo, hhi⟩, rfl⟩ := map_utf8Scalar_eq_some_iff.1 h
    unfold utf8Low at hc hlo hhi
    rw [utf8EncodeChar_four (by omega), ← eq_utf8Byte (b := b0) (by omega),
      ← eq_utf8Byte (b := b1) (by omega), ← eq_utf8Byte (b := b2) (by omega),
      ← eq_utf8Byte (b := b3) (by omega)]
    rfl
  · cases h

/-! ### Whole sequences -/

theorem utf8Encode_cons (c : Char) (t : List Char) :
    utf8Encode (c :: t) = utf8EncodeChar c ++ utf8Encode t := List.flatMap_cons

theorem utf8EncodeChar_ne_nil (c : Char) : utf8EncodeChar c ≠ [] := fun h => by
  have hnext := utf8Next_utf8EncodeChar_append c []
  rw [h] at hnext
  cases hnext

/-- The decoder recovers the scalar values one by one, and each has taken a byte at least. -/
theorem utf8DecodeFuel_utf8Encode {t : List Char} {fuel : Nat}
    (hfuel : (utf8Encode t).length ≤ fuel) : utf8DecodeFuel fuel (utf8Encode t) = some t := by
  induction t generalizing fuel with
  | nil => cases fuel <;> rfl
  | cons c t ih =>
    obtain ⟨b, bs, hb⟩ := List.exists_cons_of_ne_nil (utf8EncodeChar_ne_nil c)
    have hnext := utf8Next_utf8EncodeChar_append c (utf8Encode t)
    rw [utf8Encode_cons, hb, List.cons_append] at hfuel ⊢
    rw [hb, List.cons_append] at hnext
    rw [List.length_cons, List.length_append] at hfuel
    obtain ⟨fuel, rfl⟩ := Nat.exists_eq_add_one_of_ne_zero (show fuel ≠ 0 by omega)
    simp only [utf8DecodeFuel, hnext, ih (show (utf8Encode t).length ≤ fuel by omega),
      Option.map_some]

theorem utf8Encode_of_utf8DecodeFuel {fuel : Nat} {x : List Byte} {t : List Char}
    (h : utf8DecodeFuel fuel x = some t) : utf8Encode t = x := by
  induction fuel, x using utf8DecodeFuel.induct generalizing t with
  | case1 fuel =>
    rw [utf8DecodeFuel] at h
    cases h
    rfl
  | case2 b x => cases h
  | case3 b x fuel hnext => simp [utf8DecodeFuel, hnext] at h
  | case4 b x fuel c rest hnext ih =>
    simp only [utf8DecodeFuel, hnext, Option.map_eq_some_iff] at h
    obtain ⟨t', ht', rfl⟩ := h
    rw [utf8Encode_cons, ih ht', eq_append_of_utf8Next hnext]

theorem utf8Decode_utf8Encode (t : List Char) : utf8Decode (utf8Encode t) = some t :=
  utf8DecodeFuel_utf8Encode le_rfl

/-- Settles O57, scalar value by scalar value. -/
theorem utf8RoundTrip : Obligations.Utf8RoundTrip :=
  ⟨utf8Decode_utf8Encode, fun _ _ => utf8Encode_of_utf8DecodeFuel⟩

end Sys2Proof.Machine
end

section
/-! SUPPORT. The JSON wrapper (46_host_wrapper.md): what it makes of payloads and of completed commands,
and its run through ENCRYPT and DECRYPT. -/

namespace Sys2Proof.Machine

/-! ### Payloads (R350, R351, R354) -/

section
variable {α : Type} (j : JsonCodec α)

theorem decodePayload_of_undecodable {x : List Byte} (h : utf8Decode x = none) :
    decodePayload j x = .error .malformedPayload := by
  rw [decodePayload, h]

theorem decodePayload_of_decoded {x : List Byte} {t : List Char} (h : utf8Decode x = some t) :
    decodePayload j x = if jsonValid t then .ok (j.parse t) else .error .malformedPayload := by
  rw [decodePayload, h]

/-- The payload of a value decodes to what the host parses from its text (R354). -/
theorem decodePayload_encodePayload {v : α} (h : jsonValid (j.stringify v) = true) :
    decodePayload j (encodePayload j v) = .ok (j.parse (j.stringify v)) :=
  (decodePayload_of_decoded j (utf8Decode_utf8Encode _)).trans (if_pos h)

/-! ### Completed commands (R350, R351, R356) -/

theorem State.hostResult_of_err {s : State} (h : s.err = true) :
    s.hostResult = .error (.engine s.errCode) := if_pos h

theorem State.hostResult_of_not_err {s : State} (h : s.err = false) :
    s.hostResult = .ok ((List.range s.outLen.toNat).map s.obufByte) :=
  if_neg (by simp [h])

theorem decryptDecodeAnswer_of_error {s : State} {e : WrapperError} (h : s.hostResult = .error e) :
    decryptDecodeAnswer j s = .error e := by
  rw [decryptDecodeAnswer, h]

theorem decryptDecodeAnswer_of_ok {s : State} {x : List Byte} (h : s.hostResult = .ok x) :
    decryptDecodeAnswer j s = decodePayload j x := by
  rw [decryptDecodeAnswer, h]

end

/-- Settles O58: each clause is a case of the payload's decoding, of the length check or of the
completed command. -/
theorem wrapperPayloadsAndErrors : Obligations.WrapperPayloadsAndErrors := by
  refine fun α j => ⟨fun v => decodePayload_encodePayload j, fun x hx => ?_, fun _ h => if_pos h,
    fun _ h => if_pos h, fun s hs => ?_, fun s hs => ?_, rfl⟩
  · obtain hnone | ⟨t, ht, hinvalid⟩ := hx
    · exact decodePayload_of_undecodable j hnone
    · rw [decodePayload_of_decoded j ht, hinvalid]
      rfl
  · have hres := State.hostResult_of_err hs
    exact ⟨hres, decryptDecodeAnswer_of_error j hres⟩
  · have hres := State.hostResult_of_not_err hs
    exact ⟨hres, decryptDecodeAnswer_of_ok j hres⟩

/-! ### The accesses of the wrapper, run to their end (R355) -/

/-- The host reads back the output of a success (R131). -/
theorem State.hostResult_finish (s : State) {out : List Byte} (h : out.length ≤ Config.obufSize) :
    (s.finish out).hostResult = .ok out := by
  rw [State.hostResult_of_not_err (s.finish_err out), State.finish_outLen_toNat s h]
  refine congrArg Except.ok (List.ext_getElem (by simp) fun i _ hi => ?_)
  rw [List.getElem_map, List.getElem_range, State.finish_obufByte_of_lt s hi]

/-- IBUF into which `x` was written at offset 0 is read as `x`. -/
theorem State.memRead_zero_of_ibuf {s : State} {m : List Host.Cell} {x : List Byte}
    (h : s.ibuf = Memory.storeList m 0 x) (hm : Memory.wf m = true) : s.memRead 0 x.length = x :=
  State.memRead_zero_of_ibufByte fun i hi => by
    rw [State.ibufByte, h, Memory.read?_storeList x m 0 i hm, if_pos ⟨i.zero_le, by omega⟩,
      Nat.sub_zero, List.getElem?_eq_getElem hi, Option.getD_some]

/-- The state that the accesses of one transform end in: no access left, no command in progress, the keys
kept, IBUF in canonical form. -/
structure TransformEnded (km : KeyMaterial) (s : State) : Prop where
  pending : s.pending = []
  busy : s.busy = false
  key : s.key = some km
  ibuf_wf : Memory.wf s.ibuf = true

/-- The accesses `opsTransform` run to their end, and the host reads an output that the command `i`
answers on the operand `x` (R350, R351). -/
theorem run_opsTransform_of_answer {i : Instr} (hi : i ≠ .loadKeys) {x : List Byte} {s : State}
    {km : KeyMaterial} (hx : x.length ≤ Config.ibufSize) (hk : s.key = some km)
    (hb : s.busy = false) (hwf : Memory.wf s.ibuf = true) {P : List Byte → Prop}
    (hans : ∀ s' : State, s'.key = some km → s'.n0 = x.length → s'.memRead 0 s'.n0 = x →
      ∃ out, s'.answer i = .ok out ∧ P out) :
    ∃ k u out, Host.Core.run core k { s with pending := opsTransform i x } = .next u ∧
      TransformEnded km u ∧ u.hostResult = .ok out ∧ P out := by
  obtain ⟨k, s', t, u, hrun, hkey, hlen0, hibuf, hexec, hu⟩ :=
    run_opsTransform i x s hb hx (decode_encode i)
  have hn0 : s'.n0 = x.length := by
    have hsize := Config.ibufSize_le
    rw [State.n0, hlen0, BitVec.toNat_ofNat]
    omega
  have hread : s'.memRead 0 s'.n0 = x := hn0 ▸ State.memRead_zero_of_ibuf hibuf hwf
  obtain ⟨out, hout, hP⟩ := hans s' (hkey.trans hk) hn0 hread
  obtain rfl : t = (s'.prepared i).finish out :=
    Host.Outcome.next.inj (hexec.symm.trans (exec_of_answer_ok hout))
  refine ⟨k, u, out, hrun, ?_, ?_, hP⟩
  · rw [hu]
    refine ⟨rfl, rfl, ((s'.prepared_key hi).trans hkey).trans hk, ?_⟩
    show Memory.wf (s'.prepared i).ibuf = true
    rw [(s'.prepared_same i).ibuf, hibuf]
    exact Memory.wf_storeList _ _ _ hwf
  · rw [hu]
    exact State.hostResult_finish _ (State.answer_length_le hout)

/-- Settles O59: DECRYPT answers on the ciphertext the payload that ENCRYPT was given, which decodes to
the value. -/
theorem jsonWrapperRoundTrip : Obligations.JsonWrapperRoundTrip := by
  intro α j deepEq v s km heq hvalid hfits hk hb hwf
  obtain ⟨k, t, c, hrun, ht, hc, draw, rfl⟩ :=
    run_opsTransform_of_answer (i := .encrypt) nofun hfits hk hb hwf
      (P := fun out => ∃ draw : Vector Byte 32,
        out = encryptBytes Config.ks km (encodePayload j v) draw.toList)
      fun s' hk' hn0 hread => ⟨_, State.answer_encrypt hk' (hn0.trans_le hfits), _, by rw [hread]⟩
  refine ⟨_, k, t, _, if_neg hfits.not_gt, hrun, ht.pending, ht.busy, ht.key, hc,
    encryptBytes_length .., fun hcfits => ?_⟩
  obtain ⟨k', u, p, hrun', hu, hp, rfl⟩ :=
    run_opsTransform_of_answer (i := .decrypt) nofun hcfits ht.key ht.busy ht.ibuf_wf
      (P := (· = encodePayload j v))
      fun s' hk' hn0 hread => ⟨_, by
        rw [State.answer_decrypt hk' (hn0.trans_le hcfits), hread, decryptBytes_encryptBytes], rfl⟩
  exact ⟨_, k', u, _, if_neg hcfits.not_gt, hrun', hu.pending, hu.busy,
    (decryptDecodeAnswer_of_ok j hp).trans (decodePayload_encodePayload j hvalid), heq⟩

end Sys2Proof.Machine
end

section
/-! SUPPORT. The engine errors (R400): which of them each command's answer can be, and how a completion
that fails ends (R404, R410). -/

namespace Sys2Proof.Machine

/-! ### The errors of the checks and of the layers -/

/-- An answer computed from checked operands fails by the check alone; below, when the computation may
fail too, by the check or after it. -/
theorem exceptMap_eq_error {α : Type} {c : Except EngineError α} {f : α → List Byte}
    {e : EngineError} (h : c.map f = .error e) : c = .error e := by
  cases c with
  | error e' => cases h; rfl
  | ok x => cases h

theorem exceptBind_eq_error {α : Type} {c : Except EngineError α} {f : α → Answer}
    {e : EngineError} (h : c.bind f = .error e) :
    c = .error e ∨ ∃ x, c = .ok x ∧ f x = .error e := by
  cases c with
  | error e' => cases h; exact .inl rfl
  | ok x => exact .inr ⟨x, rfl, h⟩

/-- The key-state check precedes the length check (R411), and only they fail (R161). -/
theorem State.error_of_keysInput {s : State} {e : EngineError} (h : s.keysInput = .error e) :
    e ∈ [.invalidKeyLength, .keysLocked] := by
  by_cases hk : s.key = none
  · rw [State.keysInput_of_unkeyed hk] at h
    split at h <;> cases h
    decide
  · cases (State.keysInput_of_keyed hk).symm.trans h
    decide

/-- The checks of the key-using commands (R406, R407). -/
theorem State.error_of_keyedInput {s : State} {e : EngineError} (h : s.keyedInput = .error e) :
    e = .notKeyed ∨ e = .lengthError :=
  ((s.keyedInput_eq_error e).1 h).imp And.right fun hlen => hlen.2.2

/-- The Vernam stage has one error only (R242). -/
theorem eq_invalidCiphertext_of_vernamDecBytes {ks : List Byte → Nat → Bool} {c vk : List Byte}
    {e : EngineError} (h : vernamDecBytes ks c vk = .error e) : e = .invalidCiphertext := by
  unfold vernamDecBytes at h
  split at h <;> cases h
  rfl

/-- `Decrypt` fails with the error of one of its two stages (R321). -/
theorem error_of_decryptBytes {ks : List Byte → Nat → Bool} {km : KeyMaterial} {c : List Byte}
    {e : EngineError} (h : decryptBytes ks km c = .error e) :
    e = .cipherIntegrityError ∨ e = .invalidCiphertext := by
  cases haes : aesDecBytes km c with
  | error e' =>
    cases (decryptBytes_of_error ks haes).symm.trans h
    exact .inl rfl
  | ok v =>
    rw [decryptBytes_of_ok ks haes] at h
    exact .inr (eq_invalidCiphertext_of_vernamDecBytes h)

/-! ### The errors of the commands (R400) -/

/-- The error a command answers with is one of those R400 lets it raise. -/
theorem State.mem_mayRaise_of_answer {s : State} {i : Instr} {e : EngineError}
    (h : s.answer i = .error e) : e ∈ mayRaise i := by
  cases i with
  | loadKeys => exact State.error_of_keysInput (exceptMap_eq_error h)
  | clear => cases h
  | keystream =>
    rw [State.answer_keystream] at h
    split at h <;> cases h
    exact List.mem_cons_self
  | combine fn =>
    rw [State.answer_combine] at h
    split at h <;> cases h
    exact List.mem_cons_self
  | vernamEnc | aesEnc | encrypt =>
    obtain rfl | rfl := State.error_of_keyedInput (exceptMap_eq_error h) <;> decide
  | vernamDec =>
    obtain hcheck | ⟨x, -, hdec⟩ := exceptBind_eq_error h
    · obtain rfl | rfl := State.error_of_keyedInput hcheck <;> decide
    · obtain rfl := eq_invalidCiphertext_of_vernamDecBytes hdec
      decide
  | aesDec =>
    obtain hcheck | ⟨x, -, hdec⟩ := exceptBind_eq_error h
    · obtain rfl | rfl := State.error_of_keyedInput hcheck <;> decide
    · obtain rfl := eq_cipherIntegrityError_of_aesDecBytes hdec
      decide
  | decrypt =>
    obtain hcheck | ⟨x, -, hdec⟩ := exceptBind_eq_error h
    · obtain rfl | rfl := State.error_of_keyedInput hcheck <;> decide
    · obtain rfl | rfl := error_of_decryptBytes hdec <;> decide

/-- A command that ends with ERR = 1 has raised one of its errors: a success clears ERR (R131). -/
theorem exec_eq_raise_of_err {i : Instr} {s t : State} (h : exec i s = .next t)
    (herr : t.err = true) : ∃ e ∈ mayRaise i, t = s.raise e := by
  obtain ⟨e, hans, rfl⟩ | ⟨out, -, rfl⟩ := exec_next_iff.1 h
  · exact ⟨e, State.mem_mayRaise_of_answer hans, rfl⟩
  · cases herr

/-! ### Failed completions (R404, R410) -/

/-- The completion step of an illegal word raises IllegalCommand (R404). -/
theorem completionStep_of_illegal {s : State} (h : ¬ LegalCommandWord s.cmd) :
    completionStep s = .next (s.raise .illegalCommand) := by
  obtain ⟨i, hdec, -⟩ | ⟨-, -, hstep⟩ := completionStep_cases s
  · exact absurd ((wordDecodesExactlyWhenLegal s.cmd).1 ⟨i, hdec⟩) h
  · exact hstep

/-- A completion that ends with ERR = 1 is error entry (R410). -/
theorem completionStep_eq_raise_of_err {s t : State} (h : completionStep s = .next t)
    (herr : t.err = true) : ∃ e, t = s.raise e := by
  obtain ⟨i, -, hexec⟩ | ⟨-, -, hraise⟩ := completionStep_cases s
  · obtain ⟨e, -, ht⟩ := exec_eq_raise_of_err (hexec ▸ h) herr
    exact ⟨e, ht⟩
  · cases hraise.symm.trans h
    exact ⟨_, rfl⟩

/-- Settles O6: the due completion of a word that does not decode is error entry. -/
theorem illegalWordRaisesIllegalCommand : Obligations.IllegalWordRaisesIllegalCommand :=
  fun s hdue hillegal => ⟨_, (step_of_completes hdue).trans (completionStep_of_illegal hillegal),
    .raise s _, .raise s _, rfl⟩

/-- Settles O23: a command or a completion that ends with ERR = 1 is error entry, which changes only the
report. -/
theorem engineErrorChangesOnlyTheReport : Obligations.EngineErrorChangesOnlyTheReport := by
  refine ⟨fun i s t hexec herr => ?_, fun s t hdue hstep herr => ?_⟩
  · obtain ⟨e, he, rfl⟩ := exec_eq_raise_of_err hexec herr
    exact ⟨e, he, .raise s e, .raise s e, rfl⟩
  · obtain ⟨e, rfl⟩ := completionStep_eq_raise_of_err (step_of_completes hdue ▸ hstep) herr
    exact ⟨e, .raise s e, .raise s e, rfl⟩

/-! ### The key-free commands (R406) -/

/-- The checks and operands of CLEAR, KEYSTREAM and COMBINE do not read the key store, and their output
is committed in the state as it is. -/
theorem State.completion_withKey {i : Instr} (s : State) (key : Option KeyMaterial)
    (hi : i = .clear ∨ i = .keystream ∨ ∃ fn, i = .combine fn) :
    State.completion { s with key := key } i = { s.completion i with key := key } := by
  have hans : State.answer { s with key := key } i = s.answer i := by
    obtain rfl | rfl | ⟨fn, rfl⟩ := hi <;> rfl
  have hprep : ∀ u : State, u.prepared i = u := by
    obtain rfl | rfl | ⟨fn, rfl⟩ := hi <;> exact fun _ => rfl
  simp only [State.completion, hans, hprep]
  cases s.answer i <;> rfl

/-- Settles O25: the completion of a key-free command passes the key store through. -/
theorem keyFreeCommandsIgnoreTheKeys : Obligations.KeyFreeCommandsIgnoreTheKeys :=
  fun i s key hi => ⟨s.completion i, exec_eq_completion i s,
    (exec_eq_completion i _).trans (congrArg _ (s.completion_withKey key hi))⟩

end Sys2Proof.Machine
end

section
/-! SUPPORT. The one source of faults (R413): a host access the check `allowed` rules out. -/

namespace Sys2Proof.Machine

/-- The outcome is a next state if `ok` holds and a fault if it does not, and no refusal either way. -/
def FaultsUnless (ok : Bool) (o : Outcome) : Prop :=
  match ok with
  | true => ∃ t, o = .next t
  | false => ∃ f, o = .fault f

namespace FaultsUnless

variable {ok : Bool} {o : Outcome}

theorem ne_refused (h : FaultsUnless ok o) (r : Refusal) : o ≠ .refused r := by
  cases ok <;> obtain ⟨_, rfl⟩ := h <;> exact nofun

theorem exists_fault_iff (h : FaultsUnless ok o) : (∃ f, o = .fault f) ↔ ok = false := by
  cases ok with
  | true => obtain ⟨t, rfl⟩ := h; simp
  | false => exact iff_of_true h rfl

/-- A check in front of an access is one more condition. -/
theorem checked (h : FaultsUnless ok o) (check : Bool) (f : Fault) :
    FaultsUnless (check && ok) (if check then o else .fault f) := by
  cases check with
  | true => exact h
  | false => exact ⟨f, rfl⟩

/-- What writes no operand is performed, BUSY or not (R460). -/
theorem next (busy : Bool) (t : State) : FaultsUnless (!(busy && false)) (.next t) := by
  rw [Bool.and_false]
  exact ⟨t, rfl⟩

/-- What writes an operand faults while BUSY (R460). -/
theorem guardBusy (s t : State) : FaultsUnless (!(s.busy && true)) (s.guardBusy t) := by
  cases hb : s.busy with
  | true => exact ⟨_, State.guardBusy_of_busy t hb⟩
  | false => exact ⟨t, State.guardBusy_of_idle t hb⟩

end FaultsUnless

/-! ### Host accesses (R85, R86, R460) -/

/-- Writes of CMD and LEN0-LEN2 are guarded, the others ignored (R43, R460). -/
theorem State.hostWriteReg_faultsUnless (s : State) (r : RegName) (v : Word) :
    FaultsUnless (!(s.busy && [RegName.cmd, .len0, .len1, .len2].contains r))
      (s.hostWriteReg r v) := by
  cases r
  case cmd | len0 | len1 | len2 => exact .guardBusy s _
  all_goals exact .next s.busy s

/-- Writes of IBUF are guarded, those of OBUF ignored (R82, R460). -/
theorem State.hostWriteBuf_faultsUnless (s : State) (b : Buffer) (off : Nat) (v : Byte) :
    FaultsUnless (!(s.busy && writesOperand (.bufWrite b off v))) (s.hostWriteBuf b off v) := by
  cases b with
  | ibuf => exact .guardBusy s _
  | obuf => exact .next s.busy s

/-- A host access faults exactly when it is undefined or, while BUSY, writes an operand. -/
theorem hostStep_faultsUnless (op : HostOp) (s : State) :
    FaultsUnless (allowed op s) (hostStep op s) := by
  cases op with
  | regWrite width off v => exact (s.hostWriteReg_faultsUnless (regAt off) v).checked _ _
  | bufWrite b off v => exact (s.hostWriteBuf_faultsUnless b off v).checked _ _
  | regRead | bufRead => exact (FaultsUnless.next s.busy _).checked _ _
  | poll | reset => exact .next s.busy _

/-! ### Steps (R413) -/

/-- No completion faults: each ends in a next state (R131, R413). -/
theorem completionStep_eq_next (s : State) : ∃ t, completionStep s = .next t := by
  obtain ⟨i, -, hexec⟩ | ⟨-, -, hraise⟩ := completionStep_cases s
  · exact ⟨_, hexec.trans (exec_eq_completion i s)⟩
  · exact ⟨_, hraise⟩

/-- Settles O38: of the three kinds of step only the host's access can fault. -/
theorem stepFaultsExactlyOnForbiddenAccess : Obligations.StepFaultsExactlyOnForbiddenAccess := by
  intro s
  obtain ⟨hc, hstep⟩ | ⟨hc, op, rest, hp, hstep⟩ | ⟨-, hp, hstep⟩ := step_cases s
  · obtain ⟨t, ht⟩ := completionStep_eq_next s
    simp [hstep, ht, hc]
  · have hfaults := hostStep_faultsUnless op { s with pending := rest, delay := s.delay - 1 }
    have hallowed : allowed op { s with pending := rest, delay := s.delay - 1 } = allowed op s := rfl
    rw [← hstep, hallowed] at hfaults
    refine ⟨hfaults.ne_refused, hfaults.exists_fault_iff.trans ?_⟩
    simp [hc, hp]
  · simp [hstep, hp]

end Sys2Proof.Machine
end

section
/-! SUPPORT. The busy protocol: the writes and reads the host makes while a command is in progress, and
those it makes while none is (R460 to R462); and the reset input (R450). -/

namespace Sys2Proof.Machine

/-! ### Writes (R460) -/

/-- While BUSY a write of CMD or LEN0-LEN2 is a protocol violation (R460). -/
theorem State.hostWriteReg_of_busy {s : State} {r : RegName} (v : Word) (hb : s.busy = true)
    (hr : r ∈ [RegName.cmd, .len0, .len1, .len2]) :
    s.hostWriteReg r v = .fault .hostProtocolViolation := by
  simp only [List.mem_cons, List.not_mem_nil, or_false] at hr
  obtain rfl | rfl | rfl | rfl := hr
  all_goals exact State.guardBusy_of_busy _ hb

/-- The four offsets of R460 are aligned offsets of CMD and LEN0-LEN2 (R33). -/
theorem operandOffsets : ∀ off ∈ [0x00, 0x08, 0x0C, 0x10],
    off % 4 = 0 ∧ off < 0x40 ∧ regAt off ∈ [RegName.cmd, .len0, .len1, .len2] := by decide

/-- While BUSY a write of an IBUF byte is a protocol violation (R460). -/
theorem hostStep_bufWrite_ibuf_of_busy {s : State} {off : Nat} (v : Byte) (hb : s.busy = true)
    (h : off < Config.ibufSize) :
    hostStep (.bufWrite .ibuf off v) s = .fault .hostProtocolViolation := by
  have hok : bufAccessOk .ibuf off = true := decide_eq_true h
  simp only [hostStep, hok, if_true, State.hostWriteBuf, State.guardBusy_of_busy _ hb]

/-- An IBUF byte just written reads back, canonical form or not. -/
theorem State.setIbuf_ibufByte_self (s : State) (off : Nat) (v : Byte) :
    (s.setIbuf off v).ibufByte off = v := by
  rw [State.ibufByte, State.setIbuf_ibuf, Memory.read?_store_self, Option.getD_some]

/-- Settles O33: while BUSY the guard refuses the operand writes and the others change nothing; while
BUSY = 0 each write has its rule. -/
theorem operandWritesWhileBusyFault : Obligations.OperandWritesWhileBusyFault := by
  refine fun s v b a ha => ⟨fun hb => ⟨fun off hoff => ?_, hostStep_bufWrite_ibuf_of_busy b hb ha,
    fun a' => hostStep_bufWrite_obuf s b,
    fun off h4 hw hro => hostStep_regWrite_readOnly s v h4 hw hro⟩, fun hb => ?_⟩
  · obtain ⟨h4, hw, hreg⟩ := operandOffsets off hoff
    exact (hostStep_regWrite s v h4 hw).trans (State.hostWriteReg_of_busy v hb hreg)
  · obtain ⟨hlen0, hlen1, hlen2⟩ := lenWritesStoreTheValue s v hb
    have hcmd := (hostStep_regWrite_cmd s v).trans (State.guardBusy_of_idle _ hb)
    exact ⟨⟨_, hcmd, rfl, rfl⟩, ⟨_, hlen0, rfl⟩, ⟨_, hlen1, rfl⟩, ⟨_, hlen2, rfl⟩,
      _, hostStep_bufWrite_ibuf b hb ha, s.setIbuf_ibufByte_self a b⟩

/-! ### Reads (R461, R462) -/

/-- While BUSY a read of OUT_LEN returns a free value (R461). -/
theorem hostStep_regRead_outLen_of_busy {s : State} (hb : s.busy = true) :
    hostStep (.regRead 32 0x14) s =
      .next { s with reads := .word (Config.outLenWhileBusy s.draws) :: s.reads,
                     draws := s.draws + 1 } := by
  have hstep : hostStep (.regRead 32 0x14) s = .next (s.hostReadReg .outLen) := rfl
  rw [hstep, State.hostReadReg, if_pos ⟨rfl, hb⟩]
  rfl

/-- A host read inside a buffer reaches the byte at its offset. -/
theorem hostStep_bufRead (s : State) {b : Buffer} {off : Nat} (h : off < b.size) :
    hostStep (.bufRead b off) s = .next (s.hostReadBuf b off) := by
  have hok : bufAccessOk b off = true := decide_eq_true h
  simp only [hostStep, hok, if_true]

/-- An IBUF byte is readable BUSY or not (R461, R462). -/
theorem hostStep_bufRead_ibuf (s : State) {off : Nat} (h : off < Config.ibufSize) :
    hostStep (.bufRead .ibuf off) s =
      .next { s with reads := .byte (s.ibufByte off) :: s.reads } :=
  hostStep_bufRead s (b := .ibuf) h

/-- While BUSY a read of an OBUF byte returns a free value (R461). -/
theorem hostStep_bufRead_obuf_of_busy {s : State} {off : Nat} (hb : s.busy = true)
    (h : off < Config.obufSize) : hostStep (.bufRead .obuf off) s =
      .next { s with reads := .byte (Config.obufWhileBusy s.draws) :: s.reads,
                     draws := s.draws + 1 } := by
  rw [hostStep_bufRead s (b := .obuf) h, State.hostReadBuf, if_pos hb]
  rfl

/-- While BUSY = 0 a read of an OBUF byte returns it (R462). -/
theorem hostStep_bufRead_obuf_of_idle {s : State} {off : Nat} (hb : s.busy = false)
    (h : off < Config.obufSize) : hostStep (.bufRead .obuf off) s =
      .next { s with reads := .byte (s.obufByte off) :: s.reads } := by
  rw [hostStep_bufRead s (b := .obuf) h, State.hostReadBuf, if_neg (by simp [hb])]
  rfl

/-- Settles O36: only OUT_LEN and OBUF read differently while BUSY. -/
theorem readsWhileBusy : Obligations.ReadsWhileBusy := fun s hb =>
  ⟨fun _ hw ha hne => hostStep_regRead ha hw (.inr hne), fun _ => hostStep_bufRead_ibuf s,
    hostStep_regRead_outLen_of_busy hb, fun _ => hostStep_bufRead_obuf_of_busy hb⟩

/-- Settles O37: BUSY decides what a read of OBUF returns, and every command ends with BUSY = 0. -/
theorem obufReadsReturnTheResult : Obligations.ObufReadsReturnTheResult := by
  refine ⟨fun s hb => ⟨fun _ => hostStep_bufRead_ibuf s, fun _ => hostStep_bufRead_obuf_of_idle hb⟩,
    fun i s t j hexec hj => hostStep_bufRead_obuf_of_idle ?_ hj⟩
  obtain ⟨t', hexec', hb, -, -⟩ := everyCommandEnds i s
  rwa [Host.Outcome.next.inj (hexec.symm.trans hexec')]

/-! ### The reset input (R450) -/

/-- STATUS after the reset input is that of the reset state (R51). -/
theorem State.resetInput_status (s : State) : s.resetInput.status = 0 := by
  have hreset : s.resetInput.status = State.reset.status := rfl
  rw [hreset]
  decide

/-- Settles O40: each register, the key store and both buffers have their field of `resetInput`. -/
theorem resetInputResetsTheState : Obligations.ResetInputResetsTheState := fun s =>
  ⟨s.resetInput, rfl, s.resetInput_cmd, s.resetInput_status, s.resetInput_len0, s.resetInput_len1,
    s.resetInput_len2, s.resetInput_outLen, s.resetInput_key, rfl, s.resetInput_kMsg,
    Memory.read?_nil, Memory.read?_nil, s.resetInput_pending, s.resetInput_reads⟩

end Sys2Proof.Machine
end

section
/-! SUPPORT. Every launched command completes (R471): what one step does while a command is in progress,
and the run of at most `delay + 1` such steps. -/

namespace Sys2Proof.Machine

/-! ### The accesses a command in progress can still see -/

/-- The first access is reached unless it is a poll, which is repeated until the command has ended (R140). -/
theorem reachedWhileBusy_cons {s : State} {n : Nat} {op : HostOp} {rest : List HostOp}
    (hd : s.delay = n + 1) (hp : s.pending = op :: rest) :
    reachedWhileBusy s = if op = .poll then []
      else op :: reachedWhileBusy { s with pending := rest, delay := n } := by
  by_cases hop : op = .poll <;> simp [reachedWhileBusy, hd, hp, hop]

/-- None is reached once a poll is the next one. -/
theorem reachedWhileBusy_of_poll {s : State} {rest : List HostOp} (hp : s.pending = .poll :: rest) :
    reachedWhileBusy s = [] := by
  cases hd : s.delay with
  | zero => simp [reachedWhileBusy, hd]
  | succ n => rw [reachedWhileBusy_cons hd hp, if_pos rfl]

/-! ### One step while BUSY -/

/-- A command in progress that is not due leaves the host a step of its delay and an access. -/
theorem State.exists_host_turn {s : State} (hb : s.busy = true) (hc : s.completes = false) :
    ∃ n op rest, s.delay = n + 1 ∧ s.pending = op :: rest := by
  simp only [State.completes, hb, Bool.true_and, Bool.or_eq_false_iff, beq_eq_false_iff_ne,
    List.isEmpty_eq_false_iff] at hc
  obtain ⟨hdelay, hpending⟩ := hc
  obtain ⟨n, hn⟩ := Nat.exists_eq_succ_of_ne_zero hdelay
  obtain ⟨op, rest, hp⟩ := List.exists_cons_of_ne_nil hpending
  exact ⟨n, op, rest, hn, hp⟩

/-- An access that R460 allows while BUSY ends the command if it is a reset (R452); else it leaves BUSY, the
delay and the accesses to come, but that a poll stands before them again (R140). -/
theorem hostStep_while_busy {op : HostOp} {s : State} (hb : s.busy = true) (hwf : op.wf = true)
    (hwrites : writesOperand op = false) : ∃ t, hostStep op s = .next t ∧
      ((t.busy = false ∧ op = .reset) ∨ (t.busy = true ∧ t.delay = s.delay ∧
        t.pending = if op = .poll then .poll :: s.pending else s.pending)) := by
  have hallowed : allowed op s = true := by simp [allowed, hwf, hwrites]
  obtain ⟨t, ht⟩ : ∃ t, hostStep op s = .next t := by
    simpa only [hallowed, FaultsUnless] using hostStep_faultsUnless op s
  refine ⟨t, ht, ?_⟩
  by_cases hop : op = .poll
  · obtain ⟨⟨v, hread, -⟩, hp⟩ := hostReadsChangeNothing s t op (.inr (.inr hop)) ht
    refine .inr ⟨hread ▸ hb, hread ▸ rfl, ?_⟩
    simpa [hop, hb] using hp
  · rw [if_neg hop]
    obtain rfl | ⟨hi, -⟩ | ⟨hi, -⟩ | ⟨hi, -⟩ | ⟨r, rfl⟩ | ⟨-, r, rfl⟩ | ⟨hpoll, -⟩ | ⟨hreset, rfl⟩ :=
      hostStep_cases ht
    · exact .inr ⟨hb, rfl, rfl⟩
    · exact absurd (hi.symm.trans hb) Bool.false_ne_true
    · exact absurd (hi.symm.trans hb) Bool.false_ne_true
    · exact absurd (hi.symm.trans hb) Bool.false_ne_true
    · exact .inr ⟨hb, rfl, rfl⟩
    · exact .inr ⟨hb, rfl, rfl⟩
    · exact absurd hpoll hop
    · exact .inl ⟨rfl, hreset⟩

/-- A step while a command is in progress and not due is the host's: a reset ends the command (R452), and
every other access that R460 allows takes one off the delay and reaches no new ones. -/
theorem step_while_busy {s : State} (hb : s.busy = true) (hc : s.completes = false)
    (hkeeps : ∀ op ∈ reachedWhileBusy s, op.wf = true ∧ writesOperand op = false) :
    ∃ t, step s = .next t ∧ ((t.busy = false ∧ .reset ∈ reachedWhileBusy s) ∨
      (t.busy = true ∧ t.delay + 1 = s.delay ∧ reachedWhileBusy t ⊆ reachedWhileBusy s)) := by
  obtain ⟨n, op, rest, hd, hp⟩ := State.exists_host_turn hb hc
  have hreached := reachedWhileBusy_cons hd hp
  have hstep := step_host s op rest hc hp
  rw [hd, Nat.add_sub_cancel] at hstep
  obtain ⟨hwf, hwrites⟩ : op.wf = true ∧ writesOperand op = false := by
    by_cases hop : op = .poll
    · subst hop
      exact ⟨rfl, rfl⟩
    · exact hkeeps op (by simp [hreached, hop])
  obtain ⟨t, ht, ⟨hidle, rfl⟩ | ⟨hbusy, hdelay, hpending⟩⟩ :=
    hostStep_while_busy (s := { s with pending := rest, delay := n }) hb hwf hwrites
  · exact ⟨t, hstep.trans ht, .inl ⟨hidle, by simp [hreached]⟩⟩
  · refine ⟨t, hstep.trans ht, .inr ⟨hbusy, by rw [hdelay, hd], ?_⟩⟩
    by_cases hop : op = .poll
    · rw [if_pos hop] at hpending
      rw [reachedWhileBusy_of_poll hpending]
      exact List.nil_subset _
    · rw [if_neg hop] at hpending
      rw [hreached, if_neg hop, reachedWhileBusy, hdelay, hpending]
      exact List.subset_cons_self _ _

/-! ### The run to the completion -/

/-- A due completion ends the command in one step, whether its word decodes or not (R131, R404). -/
theorem run_one_of_completes {s : State} (hc : s.completes = true) :
    ∃ t, Host.Core.run core 1 s = .next t ∧ t.busy = false ∧ t.done = true := by
  have hrun : ∀ t, completionStep s = .next t → Host.Core.run core 1 s = .next t :=
    fun t ht => run_succ_of_step 0 s t ((step_of_completes hc).trans ht)
  obtain ⟨i, -, hexec⟩ | ⟨-, -, hraise⟩ := completionStep_cases s
  · obtain ⟨t, ht, hb, hdone, -⟩ := everyCommandEnds i s
    exact ⟨t, hrun t (hexec.trans ht), hb, hdone⟩
  · exact ⟨_, hrun _ hraise, rfl, rfl⟩

/-- Settles O8, by induction on the delay: a due completion ends the command, and another step ends it too or
leaves it in progress with a smaller delay and no new accesses to reach. -/
theorem launchedCommandCompletes : Obligations.LaunchedCommandCompletes := by
  intro s hb hkeeps
  induction hd : s.delay using Nat.strong_induction_on generalizing s with
  | h n ih =>
    cases hc : s.completes with
    | true =>
      obtain ⟨t, hrun, hidle, hdone⟩ := run_one_of_completes hc
      exact ⟨1, Nat.le_add_left 1 n, t, hrun, hidle, fun _ => hdone⟩
    | false =>
      obtain ⟨u, hstep, ⟨hidle, hreset⟩ | ⟨hbusy, hdelay, hsub⟩⟩ := step_while_busy hb hc hkeeps
      · exact ⟨1, Nat.le_add_left 1 n, u, run_succ_of_step 0 s u hstep, hidle,
          fun hno => absurd hreset hno⟩
      · obtain ⟨k, hk, t, hrun, hidle, hdone⟩ :=
          ih u.delay (by omega) u hbusy (fun op hop => hkeeps op (hsub hop)) rfl
        exact ⟨k + 1, by omega, t, (run_succ_of_step k s u hstep).trans hrun, hidle,
          fun hno => hdone fun hmem => hno (hsub hmem)⟩

end Sys2Proof.Machine
end
